-- ==== Sys2Proof/Word.lean ====
section
/-! DEFINITION. The word types of the Limb unit (spec/00_scope.md R10, R13): every quantity is an unsigned
number, bit 0 is its least significant bit, and the four widths below are the only ones a register, a bus or a
command-word field has. -/

namespace Sys2Proof

/-- A limb slot, a word of an integer register, or a data bus: `LB` = `DW` = 64 bits (R10, R23). -/
abbrev Word := BitVec 64

/-- An integer register: `NB` = 320 bits (R10, R27). -/
abbrev Big := BitVec 320

/-- A count field, and each of the command word's operand fields `k` and `c`: 3 bits (R24, R57). -/
abbrev Count := BitVec 3

/-- A command word: `CW` = 16 bits (R10, R55). -/
abbrev Cw := BitVec 16

end Sys2Proof
end

