-- ==== Sys2Proof/Syntax.lean ====
section
/-! DEFINITION. The eleven commands of the Limb unit as terms (spec/30_encoding.md R62, R64), one constructor for
each row of spec/opcode_table.json, and the command as the host presents it (R55). -/

namespace Sys2Proof

/-- The four integer registers `N0`..`N3` (R27). Their index space is separate from that of the `S` registers. -/
inductive NReg
  | n0 | n1 | n2 | n3
  deriving DecidableEq, Repr

/-- The four LimbSet registers `S0`..`S3` (R22). -/
inductive SReg
  | s0 | s1 | s2 | s3
  deriving DecidableEq, Repr

/-- A command and its operands, named as in R72 to R76, R82, R83, R90, R100, R110 and R114. The write data is an
operand of the two commands that use it (R58; log entry 8). -/
inductive Instr
  /-- `WRN Nd, j, data`: write word j of an integer register (R72). -/
  | wrn (nd : NReg) (j : Count) (data : Word)
  /-- `RDN Ns, j`: read word j of an integer register (R73). -/
  | rdn (ns : NReg) (j : Count)
  /-- `WRL Sd, i, data`: write limb slot i (R74). -/
  | wrl (sd : SReg) (i : Count) (data : Word)
  /-- `RDL Ss, i`: read limb slot i (R75). -/
  | rdl (ss : SReg) (i : Count)
  /-- `MKLS Sd, wcnt, cnt`: construct a LimbSet (R82). -/
  | mkls (sd : SReg) (wcnt cnt : Count)
  /-- `RDC Ss`: read the limb count (R76). -/
  | rdc (ss : SReg)
  /-- `VALID Ss`: the invariant checker (R83). -/
  | valid (ss : SReg)
  /-- `DECOMP Sd, Ns, cnt`: integer to limbs (R90). -/
  | decomp (sd : SReg) (ns : NReg) (cnt : Count)
  /-- `NORM Sd, Ss`: carry propagation and fold (R100). -/
  | norm (sd ss : SReg)
  /-- `RECOMP Nd, Ss`: limbs to integer (R110). -/
  | recomp (nd : NReg) (ss : SReg)
  /-- `MODP Sd`: copy the modulus constant (R114). -/
  | modp (sd : SReg)
  deriving DecidableEq, Repr

/-- What the host presents in one transaction: a command word and a write-data word (R55). -/
structure Command where
  cw    : Cw
  wdata : Word
  deriving DecidableEq, Repr

end Sys2Proof
end

