-- ==== Sys2Proof/Machine/State.lean ====
section
/-! DEFINITION. The state of the Limb unit as plain data (spec/10_state.md R20): exactly the four integer registers
and the four LimbSet registers, beside what one step exchanges with the host (R55): the inputs the host is about to
present and the response channel. There is no program counter, flag, control register or memory (R30 to R34, R40). -/

namespace Sys2Proof.Machine

/-- A LimbSet register: six limb slots of 64 bits and the 3-bit count (R20, R22 to R25). Slot 5 exists whatever the
count is. The width schedule is not stored: every width is 51 (R22). -/
structure LimbSetReg where
  l0  : Word
  l1  : Word
  l2  : Word
  l3  : Word
  l4  : Word
  l5  : Word
  cnt : Count
  deriving DecidableEq, Repr

/-- The architectural state of R20, 2828 bits and nothing else. -/
structure Arch where
  n0 : Big
  n1 : Big
  n2 : Big
  n3 : Big
  s0 : LimbSetReg
  s1 : LimbSetReg
  s2 : LimbSetReg
  s3 : LimbSetReg
  deriving DecidableEq, Repr

/-- The status of a response (R120). -/
inductive Status
  | ok | shapeError | rangeError | illegalCommand
  deriving DecidableEq, Repr

/-- A response: a status and a read-data word (R55). -/
structure Response where
  status : Status
  rdata  : Word
  deriving DecidableEq, Repr

/-- What the outside can do to the unit between two commands: present a command (R55) or assert reset (R141: "one
more step that can occur between any two commands"). -/
inductive HostInput
  | command (cmd : Command)
  | reset
  deriving DecidableEq, Repr

/-- The machine's state. `arch` is the spec's own (R20). `rsp` is the response channel of R61: the response of the
last command the unit accepted, if any since reset. `input` is the MODEL's own field (log entry 1): the host's inputs
in the order it presents them, next first. -/
structure State where
  arch  : Arch
  rsp   : Option Response
  input : List HostInput
  deriving DecidableEq, Repr

/-- Reasons to stop with a fault: there are none, and so nothing raises one. "No operation is fatal to the process"
(R32, R126), and every command word on every state has exactly one defined outcome (spec/93, opening). -/
inductive Fault
  deriving DecidableEq, Repr

/-- Reasons to refuse. -/
inductive Refusal
  /-- Raised by an arm of `exec` whose instruction has no meaning yet. Safe: nothing is claimed of that instruction.
  Every instruction has its meaning, so no arm raises it. -/
  | notModelled (mnemonic : String)
  deriving DecidableEq, Repr

/-- A LimbSet register after reset: every slot 0, count 0, so empty (R36). -/
def LimbSetReg.zero : LimbSetReg := ⟨0, 0, 0, 0, 0, 0, 0⟩

/-- The architectural state after reset: every bit zero (R36). -/
def Arch.reset : Arch := ⟨0, 0, 0, 0, .zero, .zero, .zero, .zero⟩

/-- The machine right after reset: every register zero, no response on the channel (R140), and no input waiting (log
entry 2). -/
def State.reset : State := ⟨.reset, none, []⟩

end Sys2Proof.Machine
end

