-- ==== Sys2Proof/Config.lean ====
section
/-! DEFINITION. The parameters of the design (spec/00_scope.md R10), fixed for this hardware, and the one
parameter the spec leaves open, command latency (R12, R151). The machine's step reads no free value: every command
word on every state has one defined outcome (spec/93_implementation_defined.md, opening). -/

namespace Sys2Proof.Config

/-- Declared bit width of a limb, and the place-value step: limb i has weight 2^(W·i). -/
abbrev W : Nat := 51
/-- Limb count of the canonical form. -/
abbrev CNT_CANON : Nat := 5
/-- Limb count of the transient form. -/
abbrev CNT_TRANS : Nat := 6
/-- The field modulus, 2^255 − 19. -/
abbrev P : Nat := 2 ^ 255 - 19
/-- The fold multiplier, 2^255 mod P. -/
abbrev FOLD : Nat := 19
/-- The bit position at which the fold applies. -/
abbrev FOLD_POS : Nat := 255
/-- Physical width of a limb slot. -/
abbrev LB : Nat := 64
/-- Physical width of an integer register. -/
abbrev NB : Nat := 320
/-- Number of 64-bit words in an integer register. -/
abbrev NWORDS : Nat := 5
/-- Limb slots in a LimbSet register. -/
abbrev NSLOTS : Nat := 6
/-- Number of LimbSet registers. -/
abbrev NS : Nat := 4
/-- Number of integer registers. -/
abbrev NN : Nat := 4
/-- Width of a command word. -/
abbrev CW : Nat := 16
/-- Width of the write-data and read-data buses. -/
abbrev DW : Nat := 64

/-- `MASK51` of R11 (a) and R15: 2^51 − 1. -/
abbrev MASK51 : Nat := 2 ^ W - 1

/-- FREE VALUE (log entry 9). `LATENCY` of R151: the unit answers the command `cmd`, its n-th, accepted with the
registers `operands`, `latencyExtra n cmd operands + 1` clock edges after accepting it. The spec says the number is
finite, at least one, and may differ between commands and between operand values; it gives no value, so nothing here
does. DESIGN CHOICE (log entry 18): the number is a function of these three and of nothing else. Only the pin-level port
(Machine/Port.lean) reads it. -/
opaque latencyExtra (n : Nat) (cmd : Command) (operands : Machine.Arch) : Nat

end Sys2Proof.Config
end

