-- ==== Sys2Proof/WellFormed.lean ====
section
/-! DEFINITION. Which terms of `Instr` some command word spells. Only the element index of the four element
transfers is restricted (spec/20_memory.md R41, spec/30_encoding.md R62's extra conditions): MKLS and DECOMP accept
every value of their count operands at the encoding level (R63). -/

namespace Sys2Proof

/-- A word index of an integer register is 0..4 (R41). -/
def wordIndexOk (j : Count) : Bool := j.toNat < Config.NWORDS

/-- A slot index of a LimbSet register is 0..5 (R41). -/
def slotIndexOk (i : Count) : Bool := i.toNat < Config.NSLOTS

/-- The instruction has an encoding. -/
def Instr.wellFormed : Instr → Bool
  | .wrn _ j _ => wordIndexOk j
  | .rdn _ j => wordIndexOk j
  | .wrl _ i _ => slotIndexOk i
  | .rdl _ i => slotIndexOk i
  | .mkls _ _ _ => true
  | .rdc _ => true
  | .valid _ => true
  | .decomp _ _ _ => true
  | .norm _ _ => true
  | .recomp _ _ => true
  | .modp _ => true

end Sys2Proof
end

