-- ==== Sys2Proof/Decode.lean ====
section
/-! DEFINITION. The command word (spec/30_encoding.md R57 to R64): its six fields, the total decoder with the reason
for each rejection, the encoder, and the opcode map of R62 as a table of rows. -/

namespace Sys2Proof

/-! ## Fields of the command word (R57) -/

/-- `op` = cw[15:12]. -/
def Cw.op (cw : Cw) : BitVec 4 := cw.extractLsb' 12 4
/-- `rd` = cw[11:10]. -/
def Cw.rd (cw : Cw) : BitVec 2 := cw.extractLsb' 10 2
/-- `rs` = cw[9:8]. -/
def Cw.rs (cw : Cw) : BitVec 2 := cw.extractLsb' 8 2
/-- `k` = cw[7:5]. -/
def Cw.k (cw : Cw) : BitVec 3 := cw.extractLsb' 5 3
/-- `c` = cw[4:2]. -/
def Cw.c (cw : Cw) : BitVec 3 := cw.extractLsb' 2 3
/-- `z` = cw[1:0]. -/
def Cw.z (cw : Cw) : BitVec 2 := cw.extractLsb' 0 2

/-- A command word put together from its fields, most significant first, as R57's picture draws it. -/
def mkCw (op : BitVec 4) (rd rs : BitVec 2) (k c : BitVec 3) (z : BitVec 2) : Cw :=
  op ++ rd ++ rs ++ k ++ c ++ z

/-- The integer register a 2-bit index selects (R27). -/
def NReg.ofBits (b : BitVec 2) : NReg :=
  match b.toNat with
  | 0 => .n0
  | 1 => .n1
  | 2 => .n2
  | _ => .n3

/-- The 2-bit index of an integer register (R27). -/
def NReg.bits : NReg → BitVec 2
  | .n0 => 0
  | .n1 => 1
  | .n2 => 2
  | .n3 => 3

/-- The LimbSet register a 2-bit index selects (R22). -/
def SReg.ofBits (b : BitVec 2) : SReg :=
  match b.toNat with
  | 0 => .s0
  | 1 => .s1
  | 2 => .s2
  | _ => .s3

/-- The 2-bit index of a LimbSet register (R22). -/
def SReg.bits : SReg → BitVec 2
  | .s0 => 0
  | .s1 => 1
  | .s2 => 2
  | .s3 => 3

/-! ## The decoder (R64) -/

/-- Why a command word is illegal: R63's five causes, each with a name (log entry 10: the names, and which is given
where two apply, are the model's; the host sees IllegalCommand for all). -/
inductive Illegal
  /-- R63 (a): opcode 0x0, 0xC, 0xD, 0xE or 0xF. -/
  | reservedOpcode
  /-- R63 (b): `z` is not zero. -/
  | nonzeroZ
  /-- R63 (c): a field the opcode does not use is not zero. -/
  | unusedField
  /-- R63 (d): WRN or RDN with a word index of 5 or more. -/
  | wordIndex
  /-- R63 (e): WRL or RDL with a slot index of 6 or more. -/
  | slotIndex
  deriving DecidableEq, Repr

/-- The decoder's answer. -/
inductive Decoded
  | legal (i : Instr)
  | illegal (why : Illegal)
  deriving DecidableEq, Repr

/-- `i`, if the unused fields are zero and then the index is in range. -/
def accept (unusedZero indexOk : Bool) (bad : Illegal) (i : Instr) : Decoded :=
  if unusedZero then (if indexOk then .legal i else .illegal bad) else .illegal .unusedField

/-- R64's `decode`, on the whole command: the write data becomes an operand of WRN and WRL and is otherwise
ignored (R58, R59). -/
def decode (cmd : Command) : Decoded :=
  let rd := cmd.cw.rd
  let rs := cmd.cw.rs
  let k := cmd.cw.k
  let c := cmd.cw.c
  if cmd.cw.z ≠ 0 then .illegal .nonzeroZ else
  match cmd.cw.op.toNat with
  | 0x1 => accept (rs == 0 && c == 0) (decide (k.toNat ≤ 4)) .wordIndex (.wrn (.ofBits rd) k cmd.wdata)
  | 0x2 => accept (rd == 0 && c == 0) (decide (k.toNat ≤ 4)) .wordIndex (.rdn (.ofBits rs) k)
  | 0x3 => accept (rs == 0 && c == 0) (decide (k.toNat ≤ 5)) .slotIndex (.wrl (.ofBits rd) k cmd.wdata)
  | 0x4 => accept (rd == 0 && c == 0) (decide (k.toNat ≤ 5)) .slotIndex (.rdl (.ofBits rs) k)
  | 0x5 => accept (rs == 0) true .unusedField (.mkls (.ofBits rd) k c)
  | 0x6 => accept (rd == 0 && k == 0 && c == 0) true .unusedField (.rdc (.ofBits rs))
  | 0x7 => accept (rd == 0 && k == 0 && c == 0) true .unusedField (.valid (.ofBits rs))
  | 0x8 => accept (k == 0) true .unusedField (.decomp (.ofBits rd) (.ofBits rs) c)
  | 0x9 => accept (k == 0 && c == 0) true .unusedField (.norm (.ofBits rd) (.ofBits rs))
  | 0xA => accept (k == 0 && c == 0) true .unusedField (.recomp (.ofBits rd) (.ofBits rs))
  | 0xB => accept (rs == 0 && k == 0 && c == 0) true .unusedField (.modp (.ofBits rd))
  | _ => .illegal .reservedOpcode

/-- The instruction a command spells, if it spells one. -/
def Decoded.instr? : Decoded → Option Instr
  | .legal i => some i
  | .illegal _ => none

/-! ## The encoder (R62's patterns) -/

/-- The command that spells an instruction: R62's pattern for the opcode, with every unused field zero, and the
write data of WRN and WRL; the other commands carry write data 0, as the listings of R65 do (log entry 14). -/
def encode : Instr → Command
  | .wrn nd j data => ⟨mkCw 0x1 nd.bits 0 j 0 0, data⟩
  | .rdn ns j => ⟨mkCw 0x2 0 ns.bits j 0 0, 0⟩
  | .wrl sd i data => ⟨mkCw 0x3 sd.bits 0 i 0 0, data⟩
  | .rdl ss i => ⟨mkCw 0x4 0 ss.bits i 0 0, 0⟩
  | .mkls sd wcnt cnt => ⟨mkCw 0x5 sd.bits 0 wcnt cnt 0, 0⟩
  | .rdc ss => ⟨mkCw 0x6 0 ss.bits 0 0 0, 0⟩
  | .valid ss => ⟨mkCw 0x7 0 ss.bits 0 0 0, 0⟩
  | .decomp sd ns cnt => ⟨mkCw 0x8 sd.bits ns.bits 0 cnt 0, 0⟩
  | .norm sd ss => ⟨mkCw 0x9 sd.bits ss.bits 0 0 0, 0⟩
  | .recomp nd ss => ⟨mkCw 0xA nd.bits ss.bits 0 0 0, 0⟩
  | .modp sd => ⟨mkCw 0xB sd.bits 0 0 0 0, 0⟩

/-! ## The opcode map (R62) -/

/-- The mnemonic of R62's row. -/
def Instr.mnemonic : Instr → String
  | .wrn _ _ _ => "WRN"
  | .rdn _ _ => "RDN"
  | .wrl _ _ _ => "WRL"
  | .rdl _ _ => "RDL"
  | .mkls _ _ _ => "MKLS"
  | .rdc _ => "RDC"
  | .valid _ => "VALID"
  | .decomp _ _ _ => "DECOMP"
  | .norm _ _ => "NORM"
  | .recomp _ _ => "RECOMP"
  | .modp _ => "MODP"

/-- One row of R62: the fixed bits and the extra condition, here as the number of legal values of `k`. -/
structure OpRow where
  mnemonic : String
  pattern  : Cw
  mask     : Cw
  kBound   : Nat
  deriving DecidableEq, Repr

/-- The word has the row's opcode, well-formed unused fields and an index in range. -/
def OpRow.spells (r : OpRow) (cw : Cw) : Bool :=
  cw &&& r.mask == r.pattern && decide (cw.k.toNat < r.kBound)

/-- R62's eleven rows, in its order. -/
def opTable : List OpRow :=
  [⟨"WRN", 0x1000, 0xF31F, 5⟩, ⟨"RDN", 0x2000, 0xFC1F, 5⟩, ⟨"WRL", 0x3000, 0xF31F, 6⟩,
    ⟨"RDL", 0x4000, 0xFC1F, 6⟩, ⟨"MKLS", 0x5000, 0xF303, 8⟩, ⟨"RDC", 0x6000, 0xFCFF, 8⟩,
    ⟨"VALID", 0x7000, 0xFCFF, 8⟩, ⟨"DECOMP", 0x8000, 0xF0E3, 8⟩, ⟨"NORM", 0x9000, 0xF0FF, 8⟩,
    ⟨"RECOMP", 0xA000, 0xF0FF, 8⟩, ⟨"MODP", 0xB000, 0xF3FF, 8⟩]

/-! ## The table's numbering of a command's bits -/

/-- A command from one number whose bits 15..0 are the command word and whose bits 79..16 are the write data; bits
at `nbits` and above count as 0 (log entry 8). -/
def commandOfBits (nbits w : Nat) : Command :=
  let v := w % 2 ^ nbits
  ⟨BitVec.ofNat 16 v, BitVec.ofNat 64 (v / 2 ^ 16)⟩

/-- The instruction the decoder reads from such a number. -/
def decodeTableWord (nbits w : Nat) : Option Instr :=
  (decode (commandOfBits nbits w)).instr?

end Sys2Proof
end

