-- ==== Sys2Proof/Machine/Operands.lean ====
section
/-! DEFINITION. The operand forms of spec/40_transfer.md R70 (a register index and an element index, and no other),
and the pure functions over limbs of spec/00_scope.md R15 that several commands share. -/

namespace Sys2Proof.Machine

/-! ## Elements of a register -/

/-- `N[i].word[j]`: bits [64·j+63 : 64·j]; an index of 5 or more names no word (R14, R41). -/
def wordOf? (v : Big) (j : Count) : Option Word :=
  if j.toNat < Config.NWORDS then some ((v >>> (Config.LB * j.toNat)).setWidth 64) else none

/-- The register's value with word j replaced and the other four unchanged (R72). -/
def withWord? (v : Big) (j : Count) (data : Word) : Option Big :=
  let place := Config.LB * j.toNat
  let hole : Big := ~~~((BitVec.allOnes 64).setWidth 320 <<< place)
  if j.toNat < Config.NWORDS then some ((v &&& hole) ||| (data.setWidth 320 <<< place)) else none

/-- The six slots, slot 0 first. -/
def LimbSetReg.slots (r : LimbSetReg) : List Word := [r.l0, r.l1, r.l2, r.l3, r.l4, r.l5]

/-- `S[i].limb[j]`, whatever the count is (R71); an index of 6 or 7 names no slot (R41). -/
def LimbSetReg.slot? (r : LimbSetReg) (i : Count) : Option Word := r.slots[i.toNat]?

/-- The register with slot i replaced, its other slots and its count unchanged (R74). -/
def LimbSetReg.withSlot? (r : LimbSetReg) (i : Count) (data : Word) : Option LimbSetReg :=
  match i.toNat with
  | 0 => some { r with l0 := data }
  | 1 => some { r with l1 := data }
  | 2 => some { r with l2 := data }
  | 3 => some { r with l3 := data }
  | 4 => some { r with l4 := data }
  | 5 => some { r with l5 := data }
  | _ => none

/-! ## Limb sets (R15, R16) -/

/-- `is_ls(c)`: c is a legal limb count. A register with any other count is empty (R24). -/
def isLs (c : Count) : Bool := c.toNat == Config.CNT_CANON || c.toNat == Config.CNT_TRANS

/-- The limbs of the LimbSet a register holds: the slots below its count (R25, R80). -/
def LimbSetReg.limbs (r : LimbSetReg) : List Word := r.slots.take r.cnt.toNat

/-- Σ l[i]·2^(51·i), over the given limbs, the first of which has index i. -/
def valueFrom (i : Nat) : List Word → Nat
  | [] => 0
  | l :: ls => l.toNat * 2 ^ (Config.W * i) + valueFrom (i + 1) ls

/-- `value(l, c)` of a register's LimbSet (R15, R81). Limbs above their bound overlap the next and are added. -/
def LimbSetReg.value (r : LimbSetReg) : Nat := valueFrom 0 r.limbs

/-- `validate(l, c)`: every limb is below 2^51 (R15, R83). -/
def LimbSetReg.validate (r : LimbSetReg) : Bool := r.limbs.all fun l => decide (l.toNat < 2 ^ Config.W)

/-- `digits51(v, c)`: the c base-2^51 digits of v (R15). -/
def digits51 (v c : Nat) : List Nat :=
  (List.range c).map fun i => (v >>> (Config.W * i)) &&& Config.MASK51

/-- A register written as a whole, `S[i] <- {limb = [v0..v5], cnt = c}` (R14); a slot with no value given is written
0 (R25). -/
def LimbSetReg.ofLimbs (v : List Nat) (c : Count) : LimbSetReg :=
  let slot := fun i => BitVec.ofNat 64 (v.getD i 0)
  ⟨slot 0, slot 1, slot 2, slot 3, slot 4, slot 5, c⟩

/-- Equality of the LimbSets two registers hold (R16): the counts are equal, and so are the limbs below the count. -/
def LimbSetReg.sameSet (a b : LimbSetReg) : Bool := a.cnt == b.cnt && a.limbs == b.limbs

end Sys2Proof.Machine
end

