-- ==== Sys2Proof/Machine/Flags.lean ====
section
/-! DEFINITION. The unit has no flags, condition codes or status register (spec/10_state.md R31, R32). What a command
reports goes out in its own response and is latched nowhere: the status code (spec/60_exceptions.md R120) and, for
VALID, a Boolean in the read data (R83). -/

namespace Sys2Proof.Machine

/-- The three errors a command can raise (R120). -/
inductive CmdError
  /-- Wrong shape (R121). -/
  | shape
  /-- Integer out of range (R123). -/
  | range
  /-- The word spells no command (R122). -/
  | illegal
  deriving DecidableEq, Repr

/-- The status an error answers with (R120). -/
def CmdError.status : CmdError → Status
  | .shape => .shapeError
  | .range => .rangeError
  | .illegal => .illegalCommand

/-- The 2-bit code of a status on `rsp_status` (R61, R120). -/
def Status.code : Status → BitVec 2
  | .ok => 0
  | .shapeError => 1
  | .rangeError => 2
  | .illegalCommand => 3

/-- A Boolean as read data: 1 is true, 0 is false (R83). -/
def boolWord (b : Bool) : Word := if b then 1 else 0

end Sys2Proof.Machine
end

