-- ==== Sys2Proof/Machine/Ops.lean ====
section
/-! DEFINITION. The named operations the commands share: reading and writing registers (spec/00_scope.md R14), ending
a command with a response or an error (R14, spec/60_exceptions.md R125), and what reset does (R140). -/

namespace Sys2Proof.Machine

/-! ## Registers -/

/-- `N[i]`. -/
def Arch.readN (a : Arch) : NReg → Big
  | .n0 => a.n0
  | .n1 => a.n1
  | .n2 => a.n2
  | .n3 => a.n3

/-- `N[i] <- v`. -/
def Arch.writeN (a : Arch) (r : NReg) (v : Big) : Arch :=
  match r with
  | .n0 => { a with n0 := v }
  | .n1 => { a with n1 := v }
  | .n2 => { a with n2 := v }
  | .n3 => { a with n3 := v }

/-- `S[i]`. -/
def Arch.readS (a : Arch) : SReg → LimbSetReg
  | .s0 => a.s0
  | .s1 => a.s1
  | .s2 => a.s2
  | .s3 => a.s3

/-- `S[i] <- v`, all seven fields. -/
def Arch.writeS (a : Arch) (r : SReg) (v : LimbSetReg) : Arch :=
  match r with
  | .s0 => { a with s0 := v }
  | .s1 => { a with s1 := v }
  | .s2 => { a with s2 := v }
  | .s3 => { a with s3 := v }

/-- `N[i]` of the machine. -/
def State.readN (s : State) (r : NReg) : Big := s.arch.readN r

/-- `S[i]` of the machine. -/
def State.readS (s : State) (r : SReg) : LimbSetReg := s.arch.readS r

/-- `N[i] <- v` in the machine. -/
def State.writeN (s : State) (r : NReg) (v : Big) : State := { s with arch := s.arch.writeN r v }

/-- `S[i] <- v` in the machine. -/
def State.writeS (s : State) (r : SReg) (v : LimbSetReg) : State := { s with arch := s.arch.writeS r v }

/-! ## The end of a command -/

/-- `respond(v)`: the command ends with status OK and read data v (R14). -/
def respond (v : Word) (s : State) : Host.Outcome State Fault Refusal :=
  .next { s with rsp := some ⟨.ok, v⟩ }

/-- `done`: the command ends with status OK and read data 0 (R14, R60). -/
def done (s : State) : Host.Outcome State Fault Refusal := respond 0 s

/-- `raise <Error>`: taking an exception, the one place (R14, R125). No architectural state is written, the response
carries the error's status and read data 0, no mode changes, nothing is saved and no vector is taken: the handler is
the host. There is no return beside it: "There is nothing to return from and nothing to re-enable" (R126). -/
def raise (e : CmdError) (s : State) : Host.Outcome State Fault Refusal :=
  .next { s with rsp := some ⟨e.status, 0⟩ }

/-! ## Between commands -/

/-- Reset (R140, R141): every register takes its reset value and no response is on the channel. What the host has
still to present is the host's and stays (log entry 5). -/
def takeReset (s : State) : State := { s with arch := .reset, rsp := none }

/-- The host presents one more command, ahead of what waits (R55). -/
def State.present (s : State) (cmd : Command) : State := { s with input := .command cmd :: s.input }

end Sys2Proof.Machine
end

