-- ==== Sys2Proof/Machine/Decomposer.lean ====
section
/-! DEFINITION. The Decomposer (spec/42_decomposer.md R90 to R95). -/

namespace Sys2Proof.Machine

/-- DECOMP (R90): the shape check, then the range check on all 320 bits (R124), then the digits; slots at and above
`cnt` are written 0. -/
def execDecomp (sd : SReg) (ns : NReg) (cnt : Count) (s : State) : Host.Outcome State Fault Refusal :=
  if isLs cnt then
    if (s.readN ns).toNat < 2 ^ (Config.W * cnt.toNat) then
      done (s.writeS sd (.ofLimbs (digits51 (s.readN ns).toNat cnt.toNat) cnt))
    else raise .range s
  else raise .shape s

end Sys2Proof.Machine
end

