-- ==== Sys2Proof/Machine/FieldConstant.lean ====
section
/-! DEFINITION. The FieldConstant registry (spec/45_fieldconstant.md R113 to R117): one hardwired constant and the
command that copies it. -/

namespace Sys2Proof.Machine

/-- `P_LIMBS` (R29): the limbs of p = 2^255 − 19, least significant first. Wired in, not state. -/
def pLimbs : List Nat :=
  [0x7FFFFFFFFFFED, 0x7FFFFFFFFFFFF, 0x7FFFFFFFFFFFF, 0x7FFFFFFFFFFFF, 0x7FFFFFFFFFFFF]

/-- MODP (R114): a copy of the constant, slot 5 zero, count 5. -/
def execModp (sd : SReg) (s : State) : Host.Outcome State Fault Refusal :=
  done (s.writeS sd (.ofLimbs pLimbs 5))

end Sys2Proof.Machine
end

