-- ==== Sys2Proof/Machine/LimbSet.lean ====
section
/-! DEFINITION. The LimbSet container's two commands (spec/41_limbset.md R80 to R86). -/

namespace Sys2Proof.Machine

/-- MKLS (R82): both shape checks, then the count is set and no slot is touched. -/
def execMkls (sd : SReg) (wcnt cnt : Count) (s : State) : Host.Outcome State Fault Refusal :=
  if wcnt ≠ cnt then raise .shape s
  else if isLs cnt then done (s.writeS sd { s.readS sd with cnt := cnt })
  else raise .shape s

/-- VALID (R83): the Boolean goes out in the read data. -/
def execValid (ss : SReg) (s : State) : Host.Outcome State Fault Refusal :=
  if isLs (s.readS ss).cnt then respond (boolWord (s.readS ss).validate) s
  else raise .shape s

end Sys2Proof.Machine
end

