-- ==== Sys2Proof/Machine/Normalizer.lean ====
section
/-! DEFINITION. The Normalizer (spec/43_normalizer.md R96 to R109): the loop of R100 over six unbounded working
limbs. The loop runs on fuel; R103 proves that at most three carry passes are ever needed, which is the fuel given
(log entry 7). Machine/NormSpec.lean holds the same loop without fuel, and R101's closed form. -/

namespace Sys2Proof.Machine

/-- The working limbs `w[0..5]`, unbounded non-negative integers (R98). -/
structure Work where
  w0 : Nat
  w1 : Nat
  w2 : Nat
  w3 : Nat
  w4 : Nat
  w5 : Nat
  deriving DecidableEq, Repr

/-- The part of a working limb above its 51-bit bound (R98). -/
def overflow (x : Nat) : Nat := x >>> Config.W

/-- The part of a working limb within its bound (R98). -/
def low51 (x : Nat) : Nat := x &&& Config.MASK51

/-- The body of `carry_pass` at limb i (R98): limb i is masked and its overflow is added to limb i + 1, in place. The
scan covers limbs 0 to 4 only; limb 5 is never masked. -/
def carryAt : Nat → Work → Work
  | 0, w => { w with w0 := low51 w.w0, w1 := w.w1 + overflow w.w0 }
  | 1, w => { w with w1 := low51 w.w1, w2 := w.w2 + overflow w.w1 }
  | 2, w => { w with w2 := low51 w.w2, w3 := w.w3 + overflow w.w2 }
  | 3, w => { w with w3 := low51 w.w3, w4 := w.w4 + overflow w.w3 }
  | 4, w => { w with w4 := low51 w.w4, w5 := w.w5 + overflow w.w4 }
  | _, w => w

/-- `carry_pass` (R98): limbs 0 to 4 in order, each overflow added before the next limb is examined. -/
def carryPass (w : Work) : Work := carryAt 4 (carryAt 3 (carryAt 2 (carryAt 1 (carryAt 0 w))))

/-- Limbs 0 to 4 are within bound: the exit test of R100's inner loop. -/
def Work.inBound (w : Work) : Bool :=
  decide (w.w0 < 2 ^ Config.W) && decide (w.w1 < 2 ^ Config.W) && decide (w.w2 < 2 ^ Config.W) &&
    decide (w.w3 < 2 ^ Config.W) && decide (w.w4 < 2 ^ Config.W)

/-- `fold` (R99): limb 5 comes back into limb 0 times 19. -/
def foldTop (w : Work) : Work := { w with w0 := w.w0 + Config.FOLD * w.w5, w5 := 0 }

/-- R100's `repeat carry_pass until stable`, at most `n` times. -/
def carryUntilStable : Nat → Work → Work
  | 0, w => w
  | n + 1, w => if (carryPass w).inBound then carryPass w else carryUntilStable n (carryPass w)

/-- The most carry passes any content of a LimbSet register needs (R103). -/
def passBound : Nat := 3

/-- R100's `loop`, at most `n` rounds: carry until stable, leave if limb 5 is 0, else fold. -/
def normLoop : Nat → Work → Work
  | 0, w => w
  | n + 1, w =>
    let w' := carryUntilStable passBound w
    if w'.w5 = 0 then w' else normLoop n (foldTop w')

/-- The working limbs R100 starts from: limb 5 counts only when the count is 6. -/
def Work.load (r : LimbSetReg) : Work :=
  ⟨r.l0.toNat, r.l1.toNat, r.l2.toNat, r.l3.toNat, r.l4.toNat,
    if r.cnt.toNat = Config.CNT_TRANS then r.l5.toNat else 0⟩

/-- The register R100 writes from the final working limbs: limbs 0 to 4, slot 5 zero, count 5. -/
def Work.store (w : Work) : LimbSetReg := .ofLimbs [w.w0, w.w1, w.w2, w.w3, w.w4, 0] 5

/-- What NORM makes of a source register. -/
def normalized (r : LimbSetReg) : LimbSetReg := (normLoop passBound (.load r)).store

/-- NORM (R100): the whole source is read before the destination is written, so they may be one register. -/
def execNorm (sd ss : SReg) (s : State) : Host.Outcome State Fault Refusal :=
  if isLs (s.readS ss).cnt then done (s.writeS sd (normalized (s.readS ss)))
  else raise .shape s

end Sys2Proof.Machine
end

