-- ==== Sys2Proof/Machine/Recomposer.lean ====
section
/-! DEFINITION. The Recomposer (spec/44_recomposer.md R110 to R112). -/

namespace Sys2Proof.Machine

/-- RECOMP (R110): the exact sum, which is below 2^320 for every content of the source (R11 (c)). -/
def execRecomp (nd : NReg) (ss : SReg) (s : State) : Host.Outcome State Fault Refusal :=
  if isLs (s.readS ss).cnt then done (s.writeN nd (BitVec.ofNat 320 (s.readS ss).value))
  else raise .shape s

end Sys2Proof.Machine
end

