-- ==== Sys2Proof/Machine/Transfer.lean ====
section
/-! DEFINITION. The host transfer commands (spec/40_transfer.md R70 to R77): they check, mask, carry and reduce
nothing, and they do not look at a LimbSet register's count. An index that names no element is IllegalCommand (log
entry 6: the decoder lets none through). -/

namespace Sys2Proof.Machine

/-- WRN (R72). -/
def execWrn (nd : NReg) (j : Count) (data : Word) (s : State) : Host.Outcome State Fault Refusal :=
  match withWord? (s.readN nd) j data with
  | some v => done (s.writeN nd v)
  | none => raise .illegal s

/-- RDN (R73). -/
def execRdn (ns : NReg) (j : Count) (s : State) : Host.Outcome State Fault Refusal :=
  match wordOf? (s.readN ns) j with
  | some v => respond v s
  | none => raise .illegal s

/-- WRL (R74). -/
def execWrl (sd : SReg) (i : Count) (data : Word) (s : State) : Host.Outcome State Fault Refusal :=
  match (s.readS sd).withSlot? i data with
  | some r => done (s.writeS sd r)
  | none => raise .illegal s

/-- RDL (R75). -/
def execRdl (ss : SReg) (i : Count) (s : State) : Host.Outcome State Fault Refusal :=
  match (s.readS ss).slot? i with
  | some v => respond v s
  | none => raise .illegal s

/-- RDC (R76): the raw count, zero-extended. -/
def execRdc (ss : SReg) (s : State) : Host.Outcome State Fault Refusal :=
  respond ((s.readS ss).cnt.setWidth 64) s

end Sys2Proof.Machine
end

