-- ==== Sys2Proof/Machine/Dispatch.lean ====
section
/-! DEFINITION. One arm for each command, each a direct call of its meaning. -/

namespace Sys2Proof.Machine

def exec (i : Instr) (s : State) : Host.Outcome State Fault Refusal :=
  match i with
  | .wrn nd j data => Sys2Proof.Machine.execWrn nd j data s
  | .rdn ns j => Sys2Proof.Machine.execRdn ns j s
  | .wrl sd k data => Sys2Proof.Machine.execWrl sd k data s
  | .rdl ss k => Sys2Proof.Machine.execRdl ss k s
  | .mkls sd wcnt cnt => Sys2Proof.Machine.execMkls sd wcnt cnt s
  | .rdc ss => Sys2Proof.Machine.execRdc ss s
  | .valid ss => Sys2Proof.Machine.execValid ss s
  | .decomp sd ns cnt => Sys2Proof.Machine.execDecomp sd ns cnt s
  | .norm sd ss => Sys2Proof.Machine.execNorm sd ss s
  | .recomp nd ss => Sys2Proof.Machine.execRecomp nd ss s
  | .modp sd => Sys2Proof.Machine.execModp sd s

end Sys2Proof.Machine
end

