-- ==== Sys2Proof/Machine/Step.lean ====
section
/-! DEFINITION. One step of the unit: it takes the host's next input. A step is one command from acceptance to its
response (spec/20_memory.md R46, R49; spec/70_reset_and_hazards.md R151), or one reset (R141); with nothing presented
the unit is idle and holds its state (R137, R144; log entry 3). -/

namespace Sys2Proof.Machine

/-- The step. Decoding comes before any register is looked at (R122, R124). -/
def step (s : State) : Host.Outcome State Fault Refusal :=
  match s.input with
  | [] => .next s
  | .reset :: rest => .next (takeReset { s with input := rest })
  | .command cmd :: rest =>
    match decode cmd with
    | .legal i => exec i { s with input := rest }
    | .illegal _ => raise .illegal { s with input := rest }

/-- The host presents the command numbered as spec/opcode_table.json numbers its bits (log entries 2 and 8), so that
the next step runs it. -/
def State.withFetchWord (s : State) (nbits w : Nat) : State := s.present (commandOfBits nbits w)

end Sys2Proof.Machine
end

