-- ==== Sys2Proof/Machine/Asm.lean ====
section
/-! DEFINITION. The assembler's view (spec/30_encoding.md R65, R66): how a command is written, and the two
pseudo-instructions as the sequences of commands they abbreviate. Neither adds anything to the unit. -/

namespace Sys2Proof.Machine

/-! ## Pseudo-instructions (R66) -/

/-- `LDN Nd, v`: five WRN commands, word 0 first. -/
def ldn (nd : NReg) (v : Big) : List Instr :=
  (List.range Config.NWORDS).map fun j =>
    .wrn nd (BitVec.ofNat 3 j) ((v >>> (Config.LB * j)).setWidth 64)

/-- The WRL commands of LDLS for the given limbs, the first of which goes to slot i. -/
def writeSlots (sd : SReg) (i : Nat) : List Word → List Instr
  | [] => []
  | l :: ls => .wrl sd (BitVec.ofNat 3 i) l :: writeSlots sd (i + 1) ls

/-- `LDLS Sd, [l0, …]` for 5 or 6 limbs: a WRL for each, then MKLS with their number. -/
def ldls (sd : SReg) (limbs : List Word) : List Instr :=
  writeSlots sd 0 limbs ++ [.mkls sd (BitVec.ofNat 3 limbs.length) (BitVec.ofNat 3 limbs.length)]

/-- Commands executed one after the other, each on the state the one before left (R49). -/
def execAll : List Instr → State → Host.Outcome State Fault Refusal
  | [], s => .next s
  | i :: is, s =>
    match exec i s with
    | .next t => execAll is t
    | .fault f => .fault f
    | .refused r => .refused r

/-! ## Assembler text (R65) -/

/-- The name of an integer register. -/
def asmN : NReg → String
  | .n0 => "N0"
  | .n1 => "N1"
  | .n2 => "N2"
  | .n3 => "N3"

/-- The name of a LimbSet register. -/
def asmS : SReg → String
  | .s0 => "S0"
  | .s1 => "S1"
  | .s2 => "S2"
  | .s3 => "S3"

/-- A hexadecimal digit. -/
def hexDigit (n : Nat) : Char := "0123456789ABCDEF".toList.getD n '0'

/-- The `n` low hexadecimal digits of v, in front of the given ones, stopping where the rest of v is 0. -/
def hexDigits : Nat → Nat → List Char → List Char
  | 0, _, acc => acc
  | n + 1, v, acc =>
    if v < 16 then hexDigit v :: acc else hexDigits n (v / 16) (hexDigit (v % 16) :: acc)

/-- Data is hexadecimal with `0x` (R65), written without leading zeros (log entry 15). -/
def asmData (d : Word) : String := "0x" ++ String.ofList (hexDigits 16 d.toNat [])

/-- An index or a count is decimal; it has one digit. -/
def asmCount (k : Count) : String := String.ofList [hexDigit k.toNat]

/-- The operands as written, destination first (R65). -/
def asmOperands : Instr → List String
  | .wrn nd j data => [asmN nd, asmCount j, asmData data]
  | .rdn ns j => [asmN ns, asmCount j]
  | .wrl sd i data => [asmS sd, asmCount i, asmData data]
  | .rdl ss i => [asmS ss, asmCount i]
  | .mkls sd wcnt cnt => [asmS sd, asmCount wcnt, asmCount cnt]
  | .rdc ss => [asmS ss]
  | .valid ss => [asmS ss]
  | .decomp sd ns cnt => [asmS sd, asmN ns, asmCount cnt]
  | .norm sd ss => [asmS sd, asmS ss]
  | .recomp nd ss => [asmN nd, asmS ss]
  | .modp sd => [asmS sd]

/-- A command as an assembler line: its mnemonic, then its operands separated by commas (R65). -/
def asm (i : Instr) : String := i.mnemonic ++ " " ++ String.intercalate ", " (asmOperands i)

end Sys2Proof.Machine
end

