-- ==== Sys2Proof/Machine/NormSpec.lean ====
section
/-! DEFINITION. What NORM is held against: R100's loop as the pseudocode runs it, with no bound on its passes and with
its passes and folds counted (neither is observable, R103), and the closed form of R101. No command runs these. -/

namespace Sys2Proof.Machine

/-- The weighted sum of the working limbs, Σ w[i]·2^(51·i) (R98). -/
def Work.value (w : Work) : Nat :=
  w.w0 + w.w1 * 2 ^ 51 + w.w2 * 2 ^ 102 + w.w3 * 2 ^ 153 + w.w4 * 2 ^ 204 + w.w5 * 2 ^ 255

/-- `Settles w p w'`: R100's `repeat carry_pass until stable`, started at w, ends at w' after p passes. -/
inductive Settles : Work → Nat → Work → Prop
  | stable {w : Work} (h : (carryPass w).inBound = true) : Settles w 1 (carryPass w)
  | again {w w' : Work} {p : Nat} (h : (carryPass w).inBound = false) (more : Settles (carryPass w) p w') :
      Settles w (p + 1) w'

/-- `NormRuns w p f w'`: R100's `loop`, started at w, ends at w' after p carry passes and f folds. -/
inductive NormRuns : Work → Nat → Nat → Work → Prop
  | leave {w w' : Work} {p : Nat} (settled : Settles w p w') (h : w'.w5 = 0) : NormRuns w p 0 w'
  | fold {w w' w'' : Work} {p q f : Nat} (settled : Settles w p w') (h : w'.w5 ≠ 0)
      (more : NormRuns (foldTop w') q f w'') : NormRuns w (p + q) (f + 1) w''

/-- `NormHolds w0 i w`: the loop of R100, started at `w0`, can hold the working limbs w when its scan has limb i
before it (R98); at i = 5 the scan is over and the exit tests are made. -/
inductive NormHolds (w0 : Work) : Nat → Work → Prop
  | start : NormHolds w0 0 w0
  | carry {i : Nat} {w : Work} (h : NormHolds w0 i w) (scan : i < 5) : NormHolds w0 (i + 1) (carryAt i w)
  | again {w : Work} (h : NormHolds w0 5 w) (unbounded : w.inBound = false) : NormHolds w0 0 w
  | fold {w : Work} (h : NormHolds w0 5 w) (bounded : w.inBound = true) (top : w.w5 ≠ 0) :
      NormHolds w0 0 (foldTop w)

/-- V(k) of R101: V(0) is the input's value, and V(k+1) = (V(k) mod 2^255) + 19·(V(k) >> 255). -/
def foldedValue (v0 : Nat) : Nat → Nat
  | 0 => v0
  | k + 1 =>
    foldedValue v0 k % 2 ^ Config.FOLD_POS + Config.FOLD * (foldedValue v0 k >>> Config.FOLD_POS)

end Sys2Proof.Machine
end

