-- ==== Sys2Proof/Machine/Port.lean ====
section
/-! DEFINITION. The command port at its pins (spec/30_encoding.md R61, spec/70_reset_and_hazards.md R140 to R142,
R151): the unit behind two valid/ready channels, one call of `edge` for each rising edge of `clk`. The command-level
step needs none of this (R61); it gives the block its boundary and its reset input. A command's effect is placed at
the edge that accepts it (log entry 9: where in between it falls cannot be observed, R35, R141). -/

namespace Sys2Proof.Machine

/-- The input pins as sampled on a rising edge (R61); `clk` itself is the calls of `edge`. -/
structure PinsIn where
  rst      : Bool
  cmdValid : Bool
  cmd      : Command
  rspReady : Bool
  deriving DecidableEq, Repr

/-- The output pins (R61). `rsp` is `rsp_valid` with `rsp_status` and `rsp_rdata`: the spec gives these two no value
while `rsp_valid` is 0, and neither does the model (log entry 11). -/
structure PinsOut where
  cmdReady : Bool
  rsp      : Option Response
  deriving DecidableEq, Repr

/-- The unit with its port. A command is in flight exactly while `unit.rsp` holds its response (R49). -/
structure Port where
  /-- The unit; its `input` list is not used at this level, the command comes from the pins. -/
  unit     : State
  /-- Clock edges still to pass before the response of the command in flight is offered (R151). -/
  left     : Nat
  /-- The MODEL's own counter of accepted commands, so that each command has a latency of its own (log entry 9). -/
  accepted : Nat
  deriving DecidableEq, Repr

/-- The port when reset has just ended: idle, no command in flight (R142). -/
def Port.reset : Port := ⟨.reset, 0, 0⟩

/-- The outputs on an edge: both handshake outputs are 0 while `rst` is 1 (R140); otherwise the unit is ready when no
command is in flight, and offers the response once its latency has passed (R61). DESIGN CHOICE (log entry 17): an offer
is not withdrawn; `rsp_valid`, once 1, stays 1, with the same response, until the response is delivered or `rst` is 1. -/
def Port.out (p : Port) (pins : PinsIn) : PinsOut :=
  if pins.rst then ⟨false, none⟩
  else ⟨p.unit.rsp.isNone, if p.left = 0 then p.unit.rsp else none⟩

/-- The unit takes the command on the pins and holds its response for its latency (R61, R151). DESIGN CHOICE (log
entry 18): the latency depends on the count of accepted commands, the command and the registers it is accepted with, and
on nothing else. -/
def Port.accept (p : Port) (cmd : Command) : Host.Outcome Port Fault Refusal :=
  match step (p.unit.present cmd) with
  | .next t => .next ⟨t, Config.latencyExtra p.accepted cmd p.unit.arch, p.accepted + 1⟩
  | .fault f => .fault f
  | .refused r => .refused r

/-- One rising edge. Reset overrides everything (R140, R141); a command is accepted where `cmd_valid` and `cmd_ready`
are both 1, and a response delivered where `rsp_valid` and `rsp_ready` are both 1 (R61). -/
def Port.edge (p : Port) (pins : PinsIn) : Host.Outcome Port Fault Refusal :=
  if pins.rst then .next { p with unit := takeReset p.unit, left := 0 }
  else match p.unit.rsp, p.left with
    | none, _ => if pins.cmdValid then p.accept pins.cmd else .next p
    | some _, n + 1 => .next { p with left := n }
    | some _, 0 => if pins.rspReady then .next { p with unit := { p.unit with rsp := none } } else .next p

/-- Edges in a row, one for each set of pins given. -/
def Port.edges (p : Port) : List PinsIn → Host.Outcome Port Fault Refusal
  | [] => .next p
  | pins :: rest =>
    match p.edge pins with
    | .next q => q.edges rest
    | .fault f => .fault f
    | .refused r => .refused r

end Sys2Proof.Machine
end

