-- ==== Sys2Proof/Safety.lean ====
section
/-! DEFINITION. The terms the claims are stated in: the invariant of the count fields (spec/10_state.md R24), and the
read/write matrix of R28 over the places that make up the architectural state. -/

namespace Sys2Proof.Machine

/-- Bits [64·j+63 : 64·j] of n, as R14 defines `N[i].word[j]`. -/
def bits64 (n j : Nat) : Nat := n / 2 ^ (64 * j) % 2 ^ 64

/-! ## The invariant (R24) -/

/-- A count field holds 0 (empty), 5 or 6: "The only values cnt ever takes". -/
def countOk (c : Count) : Bool := c == 0 || isLs c

/-- Every count field does. -/
def State.Inv (s : State) : Prop := ∀ r : SReg, countOk (s.readS r).cnt = true

/-! ## Status conditions (R121, R123) -/

/-- ShapeError's conditions, one line of R121's table each: MKLS on unequal lengths or on a length other than 5 and 6,
DECOMP on a count other than 5 and 6, and VALID, NORM and RECOMP on an empty register. -/
def shapeCondition (s : State) : Instr → Prop
  | .mkls _ wcnt cnt => wcnt ≠ cnt ∨ (wcnt = cnt ∧ cnt ≠ 5 ∧ cnt ≠ 6)
  | .decomp _ _ cnt => cnt ≠ 5 ∧ cnt ≠ 6
  | .norm _ ss => (s.readS ss).cnt ≠ 5 ∧ (s.readS ss).cnt ≠ 6
  | .recomp _ ss => (s.readS ss).cnt ≠ 5 ∧ (s.readS ss).cnt ≠ 6
  | .valid ss => (s.readS ss).cnt ≠ 5 ∧ (s.readS ss).cnt ≠ 6
  | .wrn _ _ _ => False
  | .rdn _ _ => False
  | .wrl _ _ _ => False
  | .rdl _ _ => False
  | .rdc _ => False
  | .modp _ => False

/-- RangeError's one condition (R123). -/
def rangeCondition (s : State) : Instr → Prop
  | .decomp _ ns cnt => (cnt = 5 ∨ cnt = 6) ∧ 2 ^ (51 * cnt.toNat) ≤ (s.readN ns).toNat
  | _ => False

/-! ## Places and the read/write matrix (R28) -/

/-- A piece of the architectural state a command can read or write alone (R41): a word of an integer register, a slot
of a LimbSet register, or a count field. -/
inductive Place
  | word (r : NReg) (j : Count)
  | slot (r : SReg) (i : Count)
  | count (r : SReg)
  deriving DecidableEq, Repr

/-- What stands in a place, as a number; an index that names no element has nothing. -/
def Arch.at? (a : Arch) : Place → Option Nat
  | .word r j => (wordOf? (a.readN r) j).map BitVec.toNat
  | .slot r i => ((a.readS r).slot? i).map BitVec.toNat
  | .count r => some (a.readS r).cnt.toNat

/-- The places a successful command may write: R28's four "w" columns. -/
def placesWritten : Instr → Place → Bool
  | .wrn nd j _, p => p == .word nd j
  | .wrl sd i _, p => p == .slot sd i
  | .mkls sd _ _, p => p == .count sd
  | .recomp nd _, .word r _ => r == nd
  | .decomp sd _ _, .slot r _ => r == sd
  | .decomp sd _ _, .count r => r == sd
  | .norm sd _, .slot r _ => r == sd
  | .norm sd _, .count r => r == sd
  | .modp sd, .slot r _ => r == sd
  | .modp sd, .count r => r == sd
  | _, _ => false

/-- None of the commands writes the place. -/
def noneWrites (cmds : List Instr) (p : Place) : Prop := ∀ i ∈ cmds, placesWritten i p = false

/-- The places a command reads: R28's "r" columns. Of a source LimbSet register it reads the count and the slots below
the count. -/
def placesRead (i : Instr) (a : Arch) (p : Place) : Bool :=
  let limbsOf := fun (ss : SReg) =>
    match p with
    | .slot r i => r == ss && decide (i.toNat < (a.readS ss).cnt.toNat)
    | .count r => r == ss
    | .word _ _ => false
  match i, p with
  | .rdn ns j, p => p == .word ns j
  | .rdl ss i, p => p == .slot ss i
  | .rdc ss, p => p == .count ss
  | .decomp _ ns _, .word r _ => r == ns
  | .valid ss, _ => limbsOf ss
  | .norm _ ss, _ => limbsOf ss
  | .recomp _ ss, _ => limbsOf ss
  | _, _ => false

end Sys2Proof.Machine
end

