-- ==== Sys2Proof/Certificates/Slice0/Obligations.lean ====
section
/-! DEFINITION. The statements for the provers. Each docstring names the rule it formalises. Results are described by
reading the state after (words, slots, counts, values as numbers), not by the model's own arithmetic; what a command
leaves alone is said by giving the whole next state as the state before with the named updates. -/

open Sys2Proof Sys2Proof.Machine

/-! ## Reset -/

/-- R36: after reset every integer register, slot and count is 0 and no response is waiting. -/
def Obligations.ResetClearsEveryRegister : Prop :=
  (∀ r, State.reset.readN r = 0) ∧
  (∀ r i, i.toNat ≤ 5 → (State.reset.readS r).slot? i = some 0) ∧
  (∀ r, (State.reset.readS r).cnt = 0) ∧
  State.reset.rsp = none

/-- R143: every command is well defined on the reset state: the transfer commands read zeros or write what they are
given, MKLS, DECOMP and MODP create LimbSets, and VALID, NORM and RECOMP answer ShapeError. -/
def Obligations.CommandsOnTheResetState : Prop :=
  (∀ ns j, j.toNat ≤ 4 → exec (.rdn ns j) .reset = .next { State.reset with rsp := some ⟨.ok, 0⟩ }) ∧
  (∀ ss i, i.toNat ≤ 5 → exec (.rdl ss i) .reset = .next { State.reset with rsp := some ⟨.ok, 0⟩ }) ∧
  (∀ ss, exec (.rdc ss) .reset = .next { State.reset with rsp := some ⟨.ok, 0⟩ }) ∧
  (∀ ss, exec (.valid ss) .reset = .next { State.reset with rsp := some ⟨.shapeError, 0⟩ }) ∧
  (∀ sd ss, exec (.norm sd ss) .reset = .next { State.reset with rsp := some ⟨.shapeError, 0⟩ }) ∧
  (∀ nd ss, exec (.recomp nd ss) .reset = .next { State.reset with rsp := some ⟨.shapeError, 0⟩ }) ∧
  (∀ sd ns cnt, cnt = 5 ∨ cnt = 6 → exec (.decomp sd ns cnt) .reset =
    .next { State.reset with arch := Arch.reset.writeS sd ⟨0, 0, 0, 0, 0, 0, cnt⟩, rsp := some ⟨.ok, 0⟩ }) ∧
  (∀ sd cnt, cnt = 5 ∨ cnt = 6 → exec (.mkls sd cnt cnt) .reset =
    .next { State.reset with arch := Arch.reset.writeS sd ⟨0, 0, 0, 0, 0, 0, cnt⟩, rsp := some ⟨.ok, 0⟩ }) ∧
  (∀ sd, exec (.modp sd) .reset = .next { State.reset with
    arch := Arch.reset.writeS sd
      ⟨0x7FFFFFFFFFFED, 0x7FFFFFFFFFFFF, 0x7FFFFFFFFFFFF, 0x7FFFFFFFFFFFF, 0x7FFFFFFFFFFFF, 0, 5⟩,
    rsp := some ⟨.ok, 0⟩ }) ∧
  (∀ nd j d, j.toNat ≤ 4 → ∃ v, v.toNat = d.toNat * 2 ^ (64 * j.toNat) ∧ exec (.wrn nd j d) .reset =
    .next { State.reset with arch := Arch.reset.writeN nd v, rsp := some ⟨.ok, 0⟩ }) ∧
  (∀ sd i d, i.toNat ≤ 5 → ∃ r, r.cnt = 0 ∧ (∀ m, m.toNat ≤ 5 → r.slot? m = some (if m = i then d else 0)) ∧
    exec (.wrl sd i d) .reset = .next { State.reset with arch := Arch.reset.writeS sd r, rsp := some ⟨.ok, 0⟩ })

/-- R141, R140 at the level of commands (log entry 5 for the host's stream): a reset step leaves the reset registers and no response. -/
def Obligations.ResetStepClears : Prop :=
  ∀ s rest, s.input = .reset :: rest →
    step s = .next { arch := State.reset.arch, rsp := none, input := rest }

/-! ## The count invariant (R24) -/

/-- The count fields after reset satisfy the invariant (R24's sentence below, which the spec derives). -/
def Obligations.CountInvariantAtReset : Prop := State.reset.Inv

/-- Every step keeps "The only values `cnt` ever takes are 0 (after reset), 5 and 6" (the spec's own inference, in
R24). -/
def Obligations.CountInvariantKeptByStep : Prop :=
  ∀ s t, s.Inv → step s = .next t → t.Inv

/-- The spec's own inference in R24: the only writers of a count field are MKLS, DECOMP, NORM and MODP naming the register as destination, which
write 5 or 6, the last two only 5. -/
def Obligations.CountFieldWriters : Prop :=
  ∀ i s t r, exec i s = .next t → (t.readS r).cnt ≠ (s.readS r).cnt →
    ((t.readS r).cnt = 5 ∧ ((∃ ss, i = .norm r ss) ∨ i = .modp r)) ∨
    (((t.readS r).cnt = 5 ∨ (t.readS r).cnt = 6) ∧
      ((∃ w c, i = .mkls r w c) ∨ ∃ ns c, i = .decomp r ns c))

/-- What R121's closing remark ("a register that has not been written since reset") rests on: a register that holds a LimbSet goes on holding one until reset. -/
def Obligations.LimbSetRegistersStayConstructed : Prop :=
  ∀ s t r cmd rest, s.input = .command cmd :: rest → step s = .next t →
    ((s.readS r).cnt = 5 ∨ (s.readS r).cnt = 6) → ((t.readS r).cnt = 5 ∨ (t.readS r).cnt = 6)

/-! ## Encoding -/

/-- R62: decoding the encoding of a well-formed instruction gives it back, whatever its operands and write data. -/
def Obligations.DecodeInvertsEncode : Prop :=
  ∀ i, Instr.wellFormed i = true → decode (encode i) = .legal i

/-- R62: a command word spells at most one instruction, which is well formed and encodes back to that word; WRN and WRL
keep their write data. -/
def Obligations.EncodeInvertsDecode : Prop :=
  ∀ cmd i, decode cmd = .legal i →
    i.wellFormed = true ∧ (encode i).cw = cmd.cw ∧
    ((∃ nd j d, i = .wrn nd j d) ∨ (∃ sd j d, i = .wrl sd j d) → (encode i).wdata = cmd.wdata)

/-- R62 against R64: the words the decoder accepts are those of exactly one row of the opcode map, the row of the
instruction it gives. -/
def Obligations.DecoderAgreesWithOpcodeMap : Prop :=
  (∀ cmd, (∃ i, decode cmd = .legal i) ↔ ∃ r ∈ opTable, r.spells cmd.cw = true) ∧
  (∀ cmd i r, decode cmd = .legal i → r ∈ opTable → r.spells cmd.cw = true → r.mnemonic = i.mnemonic) ∧
  (∀ cw : Cw, opTable.Pairwise fun a b => ¬ (a.spells cw = true ∧ b.spells cw = true))

/-- R63: the illegal words, spelled out field by field, match no row of R62, and each is answered IllegalCommand with
read data 0 and no change of state; 0x0000 and 0xFFFF are among them, and MKLS and DECOMP accept every count. -/
def Obligations.IllegalWordsAndTheirAnswer : Prop :=
  (∀ op rd rs k c z d, ((decode ⟨mkCw op rd rs k c z, d⟩).instr? = none ↔
    (op = 0 ∨ op = 0xC ∨ op = 0xD ∨ op = 0xE ∨ op = 0xF) ∨ z ≠ 0 ∨
    ((op = 1 ∨ op = 3) ∧ (rs ≠ 0 ∨ c ≠ 0)) ∨ ((op = 2 ∨ op = 4) ∧ (rd ≠ 0 ∨ c ≠ 0)) ∨
    (op = 5 ∧ rs ≠ 0) ∨ ((op = 6 ∨ op = 7) ∧ (rd ≠ 0 ∨ k ≠ 0 ∨ c ≠ 0)) ∨ (op = 8 ∧ k ≠ 0) ∨
    ((op = 9 ∨ op = 10) ∧ (k ≠ 0 ∨ c ≠ 0)) ∨ (op = 11 ∧ (rs ≠ 0 ∨ k ≠ 0 ∨ c ≠ 0)) ∨
    ((op = 1 ∨ op = 2) ∧ 5 ≤ k.toNat) ∨ ((op = 3 ∨ op = 4) ∧ 6 ≤ k.toNat)) ∧
    ((decode ⟨mkCw op rd rs k c z, d⟩).instr? = none ↔
      ∀ r ∈ opTable, r.spells (mkCw op rd rs k c z) = false)) ∧
  (∀ s cmd rest, s.input = .command cmd :: rest → (decode cmd).instr? = none →
    step s = .next { s with input := rest, rsp := some ⟨.illegalCommand, 0⟩ }) ∧
  (∀ d, (decode ⟨0x0000, d⟩).instr? = none ∧ (decode ⟨0xFFFF, d⟩).instr? = none) ∧
  (∀ rd rs k c d, (decode ⟨mkCw 5 rd 0 k c 0, d⟩).instr? = some (.mkls (.ofBits rd) k c) ∧
    (decode ⟨mkCw 8 rd rs 0 c 0, d⟩).instr? = some (.decomp (.ofBits rd) (.ofBits rs) c))

/-- R65's examples: the encodings it prints, one for each command, decode to the command beside them, and that command
is written as it is there. -/
def Obligations.AssemblerExamplesDecode : Prop :=
  (decode ⟨0x1080, 1⟩ = .legal (.wrn .n0 4 1) ∧ asm (.wrn .n0 4 1) = "WRN N0, 4, 0x1") ∧
  (decode ⟨0x2260, 0⟩ = .legal (.rdn .n2 3) ∧ asm (.rdn .n2 3) = "RDN N2, 3") ∧
  (decode ⟨0x34A0, 1⟩ = .legal (.wrl .s1 5 1) ∧ asm (.wrl .s1 5 1) = "WRL S1, 5, 0x1") ∧
  (decode ⟨0x4300, 0⟩ = .legal (.rdl .s3 0) ∧ asm (.rdl .s3 0) = "RDL S3, 0") ∧
  (decode ⟨0x58B4, 0⟩ = .legal (.mkls .s2 5 5) ∧ asm (.mkls .s2 5 5) = "MKLS S2, 5, 5") ∧
  (decode ⟨0x6100, 0⟩ = .legal (.rdc .s1) ∧ asm (.rdc .s1) = "RDC S1") ∧
  (decode ⟨0x7200, 0⟩ = .legal (.valid .s2) ∧ asm (.valid .s2) = "VALID S2") ∧
  (decode ⟨0x8418, 0⟩ = .legal (.decomp .s1 .n0 6) ∧ asm (.decomp .s1 .n0 6) = "DECOMP S1, N0, 6") ∧
  (decode ⟨0x9E00, 0⟩ = .legal (.norm .s3 .s2) ∧ asm (.norm .s3 .s2) = "NORM S3, S2") ∧
  (decode ⟨0xA400, 0⟩ = .legal (.recomp .n1 .s0) ∧ asm (.recomp .n1 .s0) = "RECOMP N1, S0") ∧
  (decode ⟨0xB000, 0⟩ = .legal (.modp .s0) ∧ asm (.modp .s0) = "MODP S0")

/-- R58, R59: a command other than WRN and WRL ignores the write data, whatever it holds. -/
def Obligations.WriteDataIgnoredByOtherCommands : Prop :=
  ∀ (s : State) (cw : Cw) (d d' : Word), cw.op ≠ 1 → cw.op ≠ 3 →
    step (s.present ⟨cw, d⟩) = step (s.present ⟨cw, d'⟩)

/-! ## The step -/

/-- R46, R49 (log entry 1 for the stream): a step takes the next command off the host's stream and runs the instruction it spells. -/
def Obligations.StepRunsTheDecodedCommand : Prop :=
  ∀ s cmd rest i, s.input = .command cmd :: rest → decode cmd = .legal i →
    step s = exec i { s with input := rest }

/-- The placed word is the one that runs (log entries 2 and 8): the next step executes exactly the instruction the decoder reads from it. -/
def Obligations.FetchedWordRuns : Prop :=
  ∀ s nbits w i, decodeTableWord nbits w = some i → step (s.withFetchWord nbits w) = exec i s

/-- With nothing presented the unit is idle and holds its state (log entry 3, from R137 and R144). -/
def Obligations.IdleStepHoldsState : Prop := ∀ s, s.input = [] → step s = .next s

/-- R55, R120, R128: every command, legal or not, on every state, is answered by exactly one response; its status is
IllegalCommand exactly if the word is illegal, and then nothing is recorded; ShapeError exactly on R121's conditions,
RangeError exactly on R123's. -/
def Obligations.EveryCommandIsAnswered : Prop :=
  ∀ s cmd rest, s.input = .command cmd :: rest → ∃ t r, step s = .next t ∧ t.rsp = some r ∧ t.input = rest ∧
    match decode cmd with
    | .illegal _ => r.status = .illegalCommand ∧ r.rdata = 0 ∧ t.arch = s.arch
    | .legal i => (r.status = .shapeError ↔ shapeCondition s i) ∧ (r.status = .rangeError ↔ rangeCondition s i) ∧
        r.status ≠ .illegalCommand

/-- R120: the four status codes, which are all the codes there are. -/
def Obligations.StatusCodes : Prop :=
  Status.ok.code = 0 ∧ Status.shapeError.code = 1 ∧ Status.rangeError.code = 2 ∧ Status.illegalCommand.code = 3 ∧
  ∀ code : BitVec 2, ∃ st : Status, st.code = code ∧ ∀ st' : Status, st'.code = code → st' = st

/-- The step is total: it never stops with a fault or a refusal (R32: "No operation is fatal"). -/
def Obligations.StepAlwaysAnswersNext : Prop := ∀ s, ∃ t, step s = .next t

/-- R123: RangeError is raised by one condition and no other command; what fails with count 5 below 2^306 succeeds
with count 6, and 2^306 or more fails with both. -/
def Obligations.RangeErrorExactlyWhenTooLarge : Prop :=
  (∀ i s t d, exec i s = .next t → t.rsp = some ⟨.rangeError, d⟩ →
    t = { s with rsp := some ⟨.rangeError, 0⟩ } ∧ rangeCondition s i) ∧
  (∀ sd ns cnt s, rangeCondition s (.decomp sd ns cnt) →
    exec (.decomp sd ns cnt) s = .next { s with rsp := some ⟨.rangeError, 0⟩ }) ∧
  (∀ sd ns s, 2 ^ 255 ≤ (s.readN ns).toNat → (s.readN ns).toNat < 2 ^ 306 →
    ∃ t, exec (.decomp sd ns 6) s = .next t ∧ t.rsp = some ⟨.ok, 0⟩) ∧
  (∀ sd ns cnt s t d, 2 ^ 306 ≤ (s.readN ns).toNat → exec (.decomp sd ns cnt) s = .next t →
    t.rsp ≠ some ⟨.ok, d⟩)

/-- R125: a command that ends in an error writes no architectural state and answers read data 0; nothing else
happens. -/
def Obligations.ErrorWritesNothing : Prop :=
  ∀ s t cmd rest r, s.input = .command cmd :: rest → step s = .next t → t.rsp = some r → r.status ≠ .ok →
    t = { s with input := rest, rsp := some ⟨r.status, 0⟩ }

/-- R126: after an error the next input is taken exactly as if the failing command had never been sent. -/
def Obligations.ErrorLeavesNoTrace : Prop :=
  ∀ s t cmd x rest r, s.input = .command cmd :: x :: rest → step s = .next t → t.rsp = some r → r.status ≠ .ok →
    step t = step { s with input := x :: rest }

/-- "Re-sending a failed command with the state unchanged fails again with the same code" (the spec's own inference, in
R127): sending a failed command again, with the state as it left it, fails again with the same code. -/
def Obligations.ResendingAFailedCommandFailsAgain : Prop :=
  ∀ s t cmd rest r, s.input = .command cmd :: rest → step s = .next t → t.rsp = some r → r.status ≠ .ok →
    step (t.present cmd) = .next t

/-! ## Reads and writes (R26, R28, R45, R60) -/

/-- R26, R27: no two registers share storage, and the N and S files are separate. -/
def Obligations.RegistersAreSeparate : Prop :=
  (∀ (s : State) r q v, (s.writeN r v).readN q = if q = r then v else s.readN q) ∧
  (∀ (s : State) r q v, (s.writeS r v).readS q = if q = r then v else s.readS q) ∧
  (∀ (s : State) r q v, (s.writeN r v).readS q = s.readS q) ∧
  (∀ (s : State) r q v, (s.writeS r v).readN q = s.readN q)

/-- R28's write columns (a table the spec derives from the instruction rules), for every command: every word, slot and count outside the places the command writes is
unchanged, and so is the host's stream. -/
def Obligations.FrameOutsideWrittenPlaces : Prop :=
  ∀ i s t, exec i s = .next t →
    t.input = s.input ∧ ∀ p, placesWritten i p = false → t.arch.at? p = s.arch.at? p

/-- R28's read columns (a table the spec derives from the instruction rules), for every command: two states that agree on the places the command reads give the same
response, and where it is OK the same content of every place written. -/
def Obligations.ResultsDependOnlyOnPlacesRead : Prop :=
  ∀ i s s' t t', (∀ p, placesRead i s.arch p = true → s.arch.at? p = s'.arch.at? p) →
    exec i s = .next t → exec i s' = .next t' →
    t.rsp = t'.rsp ∧
    ∀ d, t.rsp = some ⟨.ok, d⟩ → ∀ p, placesWritten i p = true → t.arch.at? p = t'.arch.at? p

/-- R45: RDN, RDL, RDC and VALID change no register; repeating one gives the same response and the same state, also
after another command that does not write what it reads. -/
def Obligations.ReadsHaveNoSideEffects : Prop :=
  ∀ i s, ((∃ ns j, i = .rdn ns j) ∨ (∃ ss j, i = .rdl ss j) ∨ (∃ ss, i = .rdc ss) ∨ ∃ ss, i = .valid ss) →
    (∃ t, exec i s = .next t ∧ t.arch = s.arch ∧ t.input = s.input ∧ exec i t = .next t) ∧
    ∀ other t u v, (∀ p, placesRead i s.arch p = true → placesWritten other p = false) →
      exec i s = .next t → exec other s = .next u → exec i u = .next v → v.rsp = t.rsp

/-- R60: a command that returns no data, and any command that ends in an error, responds with read data 0. -/
def Obligations.NoDataMeansReadDataZero : Prop :=
  ∀ i s t r, exec i s = .next t → t.rsp = some r →
    (r.status ≠ .ok ∨ (∃ n j d, i = .wrn n j d) ∨ (∃ n j d, i = .wrl n j d) ∨ (∃ n w c, i = .mkls n w c) ∨
      (∃ n m c, i = .decomp n m c) ∨ (∃ n m, i = .norm n m) ∨ (∃ n m, i = .recomp n m) ∨ ∃ n, i = .modp n) →
    r.rdata = 0

/-- R49 (a): a read returns the value most recently written to what it reads. Any commands that do not write the place
may stand in between. The first three clauses say it from whatever state the last write (a command or reset) left; the
others name the writer: WRN, WRL, MKLS, RECOMP, DECOMP, NORM and MODP. -/
def Obligations.ReadReturnsTheLastWrite : Prop :=
  (∀ r j between s t, j.toNat ≤ 4 → noneWrites between (.word r j) → execAll between s = .next t →
    ∃ d, d.toNat = bits64 (s.readN r).toNat j.toNat ∧ exec (.rdn r j) t = .next { t with rsp := some ⟨.ok, d⟩ }) ∧
  (∀ r i between s t, i.toNat ≤ 5 → noneWrites between (.slot r i) → execAll between s = .next t →
    ∃ d, (s.readS r).slot? i = some d ∧ exec (.rdl r i) t = .next { t with rsp := some ⟨.ok, d⟩ }) ∧
  (∀ r between s t, noneWrites between (.count r) → execAll between s = .next t →
    ∃ d, d.toNat = (s.readS r).cnt.toNat ∧ exec (.rdc r) t = .next { t with rsp := some ⟨.ok, d⟩ }) ∧
  (∀ nd j d between s t, j.toNat ≤ 4 → noneWrites between (.word nd j) →
    execAll (.wrn nd j d :: between) s = .next t → exec (.rdn nd j) t = .next { t with rsp := some ⟨.ok, d⟩ }) ∧
  (∀ sd i d between s t, i.toNat ≤ 5 → noneWrites between (.slot sd i) →
    execAll (.wrl sd i d :: between) s = .next t → exec (.rdl sd i) t = .next { t with rsp := some ⟨.ok, d⟩ }) ∧
  (∀ sd cnt between s t, cnt = 5 ∨ cnt = 6 → noneWrites between (.count sd) →
    execAll (.mkls sd cnt cnt :: between) s = .next t →
    exec (.rdc sd) t = .next { t with rsp := some ⟨.ok, if cnt = 5 then 5 else 6⟩ }) ∧
  (∀ nd ss j between s t, (s.readS ss).cnt = 5 ∨ (s.readS ss).cnt = 6 → j.toNat ≤ 4 →
    noneWrites between (.word nd j) → execAll (.recomp nd ss :: between) s = .next t →
    ∃ d, d.toNat = bits64 (s.readS ss).value j.toNat ∧
      exec (.rdn nd j) t = .next { t with rsp := some ⟨.ok, d⟩ }) ∧
  (∀ sd ns cnt between s t, cnt = 5 ∨ cnt = 6 → (s.readN ns).toNat < 2 ^ (51 * cnt.toNat) →
    execAll (.decomp sd ns cnt :: between) s = .next t →
    (noneWrites between (.count sd) →
      exec (.rdc sd) t = .next { t with rsp := some ⟨.ok, if cnt = 5 then 5 else 6⟩ }) ∧
    ∀ i, i.toNat ≤ 5 → noneWrites between (.slot sd i) →
      ∃ d, d.toNat = (if i.toNat < cnt.toNat then (s.readN ns).toNat / 2 ^ (51 * i.toNat) % 2 ^ 51 else 0) ∧
        exec (.rdl sd i) t = .next { t with rsp := some ⟨.ok, d⟩ }) ∧
  (∀ sd ss between s u t, (s.readS ss).cnt = 5 ∨ (s.readS ss).cnt = 6 → exec (.norm sd ss) s = .next u →
    execAll between u = .next t →
    (noneWrites between (.count sd) → exec (.rdc sd) t = .next { t with rsp := some ⟨.ok, 5⟩ }) ∧
    ∀ i, i.toNat ≤ 5 → noneWrites between (.slot sd i) →
      ∃ d, (u.readS sd).slot? i = some d ∧ exec (.rdl sd i) t = .next { t with rsp := some ⟨.ok, d⟩ }) ∧
  (∀ sd between s t, execAll (.modp sd :: between) s = .next t →
    (noneWrites between (.count sd) → exec (.rdc sd) t = .next { t with rsp := some ⟨.ok, 5⟩ }) ∧
    ∀ i, i.toNat ≤ 5 → noneWrites between (.slot sd i) →
      ∃ d, d.toNat = pLimbs.getD i.toNat 0 ∧ exec (.rdl sd i) t = .next { t with rsp := some ⟨.ok, d⟩ })

/-! ## The transfer commands -/

/-- R72: WRN replaces word j and nothing else; its only error is IllegalCommand. -/
def Obligations.WrnWritesOneWord : Prop :=
  (∀ nd j data s, j.toNat ≤ 4 → ∃ v,
    exec (.wrn nd j data) s = .next { s with arch := s.arch.writeN nd v, rsp := some ⟨.ok, 0⟩ } ∧
    bits64 v.toNat j.toNat = data.toNat ∧
    ∀ m, m ≤ 4 → m ≠ j.toNat → bits64 v.toNat m = bits64 (s.readN nd).toNat m) ∧
  (∀ nd j data s, 5 ≤ j.toNat → exec (.wrn nd j data) s = .next { s with rsp := some ⟨.illegalCommand, 0⟩ }) ∧
  (∀ rd rs k c z d, (decode ⟨mkCw 0x1 rd rs k c z, d⟩).instr? =
    if rs = 0 ∧ c = 0 ∧ z = 0 ∧ k.toNat ≤ 4 then some (.wrn (.ofBits rd) k d) else none)

/-- R73: RDN returns word j and writes nothing. -/
def Obligations.RdnReadsOneWord : Prop :=
  (∀ ns j s, j.toNat ≤ 4 → ∃ d,
    exec (.rdn ns j) s = .next { s with rsp := some ⟨.ok, d⟩ } ∧ d.toNat = bits64 (s.readN ns).toNat j.toNat) ∧
  (∀ ns j s, 5 ≤ j.toNat → exec (.rdn ns j) s = .next { s with rsp := some ⟨.illegalCommand, 0⟩ }) ∧
  (∀ rd rs k c z d, (decode ⟨mkCw 0x2 rd rs k c z, d⟩).instr? =
    if rd = 0 ∧ c = 0 ∧ z = 0 ∧ k.toNat ≤ 4 then some (.rdn (.ofBits rs) k) else none)

/-- R74: WRL writes slot i, with no check and whatever the count is; the other slots and the count stay. -/
def Obligations.WrlWritesOneSlot : Prop :=
  (∀ sd i data s, i.toNat ≤ 5 → ∃ r,
    exec (.wrl sd i data) s = .next { s with arch := s.arch.writeS sd r, rsp := some ⟨.ok, 0⟩ } ∧
    r.slot? i = some data ∧ r.cnt = (s.readS sd).cnt ∧ ∀ m, m ≠ i → r.slot? m = (s.readS sd).slot? m) ∧
  (∀ sd i data s, 6 ≤ i.toNat → exec (.wrl sd i data) s = .next { s with rsp := some ⟨.illegalCommand, 0⟩ }) ∧
  (∀ rd rs k c z d, (decode ⟨mkCw 0x3 rd rs k c z, d⟩).instr? =
    if rs = 0 ∧ c = 0 ∧ z = 0 ∧ k.toNat ≤ 5 then some (.wrl (.ofBits rd) k d) else none)

/-- R75: RDL returns slot i, whatever the count is, and writes nothing. -/
def Obligations.RdlReadsOneSlot : Prop :=
  (∀ ss i s, i.toNat ≤ 5 → ∃ d,
    exec (.rdl ss i) s = .next { s with rsp := some ⟨.ok, d⟩ } ∧ (s.readS ss).slots[i.toNat]? = some d) ∧
  (∀ ss i s, 6 ≤ i.toNat → exec (.rdl ss i) s = .next { s with rsp := some ⟨.illegalCommand, 0⟩ }) ∧
  (∀ rd rs k c z d, (decode ⟨mkCw 0x4 rd rs k c z, d⟩).instr? =
    if rd = 0 ∧ c = 0 ∧ z = 0 ∧ k.toNat ≤ 5 then some (.rdl (.ofBits rs) k) else none)

/-- R76: RDC returns the raw count, on an empty register too, and writes nothing. -/
def Obligations.RdcReadsTheCount : Prop :=
  (∀ ss s, ∃ d, exec (.rdc ss) s = .next { s with rsp := some ⟨.ok, d⟩ } ∧ d.toNat = (s.readS ss).cnt.toNat) ∧
  (∀ ss s t r, s.Inv → exec (.rdc ss) s = .next t → t.rsp = some r → r.rdata = 0 ∨ r.rdata = 5 ∨ r.rdata = 6) ∧
  (∀ rd rs k c z d, (decode ⟨mkCw 0x6 rd rs k c z, d⟩).instr? =
    if rd = 0 ∧ k = 0 ∧ c = 0 ∧ z = 0 then some (.rdc (.ofBits rs)) else none)

/-! ## The LimbSet container -/

/-- R82: MKLS sets the count of a matched pair of 5s or 6s and touches no slot; every other pair is a ShapeError. -/
def Obligations.MklsChecksShapeOnly : Prop :=
  (∀ sd cnt s, cnt = 5 ∨ cnt = 6 → ∃ r,
    exec (.mkls sd cnt cnt) s = .next { s with arch := s.arch.writeS sd r, rsp := some ⟨.ok, 0⟩ } ∧
    r.cnt = cnt ∧ ∀ i, r.slot? i = (s.readS sd).slot? i) ∧
  (∀ sd wcnt cnt s, wcnt ≠ cnt ∨ (cnt ≠ 5 ∧ cnt ≠ 6) →
    exec (.mkls sd wcnt cnt) s = .next { s with rsp := some ⟨.shapeError, 0⟩ }) ∧
  (∀ rd rs k c z d, (decode ⟨mkCw 0x5 rd rs k c z, d⟩).instr? =
    if rs = 0 ∧ z = 0 then some (.mkls (.ofBits rd) k c) else none)

/-- R83: VALID answers 1 exactly if every limb below the count is below 2^51, and 0 otherwise; on an empty register it
is a ShapeError. It writes nothing. -/
def Obligations.ValidChecksEveryLimb : Prop :=
  (∀ ss s, (s.readS ss).cnt = 5 ∨ (s.readS ss).cnt = 6 → ∃ d,
    exec (.valid ss) s = .next { s with rsp := some ⟨.ok, d⟩ } ∧ (d = 0 ∨ d = 1) ∧
    (d = 1 ↔ ∀ i l, i.toNat < (s.readS ss).cnt.toNat → (s.readS ss).slot? i = some l → l.toNat < 2 ^ 51)) ∧
  (∀ ss s, (s.readS ss).cnt ≠ 5 → (s.readS ss).cnt ≠ 6 →
    exec (.valid ss) s = .next { s with rsp := some ⟨.shapeError, 0⟩ }) ∧
  (∀ rd rs k c z d, (decode ⟨mkCw 0x7 rd rs k c z, d⟩).instr? =
    if rd = 0 ∧ k = 0 ∧ c = 0 ∧ z = 0 then some (.valid (.ofBits rs)) else none)

/-! ## The Decomposer and the Recomposer -/

/-- R90: DECOMP writes the base-2^51 digits, zero above the count, and the count; ShapeError comes before RangeError,
and either leaves everything as it was. -/
def Obligations.DecompWritesTheDigits : Prop :=
  (∀ sd ns cnt s, cnt = 5 ∨ cnt = 6 → (s.readN ns).toNat < 2 ^ (51 * cnt.toNat) → ∃ r,
    exec (.decomp sd ns cnt) s = .next { s with arch := s.arch.writeS sd r, rsp := some ⟨.ok, 0⟩ } ∧
    r.cnt = cnt ∧ ∀ i, i.toNat ≤ 5 → (r.slot? i).map BitVec.toNat =
      some (if i.toNat < cnt.toNat then (s.readN ns).toNat / 2 ^ (51 * i.toNat) % 2 ^ 51 else 0)) ∧
  (∀ sd ns cnt s, cnt ≠ 5 → cnt ≠ 6 →
    exec (.decomp sd ns cnt) s = .next { s with rsp := some ⟨.shapeError, 0⟩ }) ∧
  (∀ sd ns cnt s, cnt = 5 ∨ cnt = 6 → 2 ^ (51 * cnt.toNat) ≤ (s.readN ns).toNat →
    exec (.decomp sd ns cnt) s = .next { s with rsp := some ⟨.rangeError, 0⟩ }) ∧
  (∀ rd rs k c z d, (decode ⟨mkCw 0x8 rd rs k c z, d⟩).instr? =
    if k = 0 ∧ z = 0 then some (.decomp (.ofBits rd) (.ofBits rs) c) else none)

/-- R110: RECOMP writes the exact weighted sum of the limbs below the count, masking nothing; an empty register is a
ShapeError. -/
def Obligations.RecompWritesTheSum : Prop :=
  (∀ nd ss s, (s.readS ss).cnt = 5 ∨ (s.readS ss).cnt = 6 → ∃ v,
    exec (.recomp nd ss) s = .next { s with arch := s.arch.writeN nd v, rsp := some ⟨.ok, 0⟩ } ∧
    v.toNat = (s.readS ss).l0.toNat + (s.readS ss).l1.toNat * 2 ^ 51 + (s.readS ss).l2.toNat * 2 ^ 102 +
      (s.readS ss).l3.toNat * 2 ^ 153 + (s.readS ss).l4.toNat * 2 ^ 204 +
      if (s.readS ss).cnt = 6 then (s.readS ss).l5.toNat * 2 ^ 255 else 0) ∧
  (∀ nd ss s, (s.readS ss).cnt ≠ 5 → (s.readS ss).cnt ≠ 6 →
    exec (.recomp nd ss) s = .next { s with rsp := some ⟨.shapeError, 0⟩ }) ∧
  (∀ rd rs k c z d, (decode ⟨mkCw 0xA rd rs k c z, d⟩).instr? =
    if k = 0 ∧ c = 0 ∧ z = 0 then some (.recomp (.ofBits rd) (.ofBits rs)) else none)

/-- R11 (the spec derives it from R10): the arithmetic facts the other rules rely on, among them that no LimbSet register's value reaches 2^320. -/
def Obligations.LimbSetValuesFitAnIntegerRegister : Prop :=
  Config.MASK51 = 0x7FFFFFFFFFFFF ∧
  Config.W * Config.CNT_CANON = 255 ∧ Config.W * Config.CNT_TRANS = 306 ∧
  (∀ r : LimbSetReg, r.value ≤
    0x8000000000000FFF8000000001FFF0000000003FFE0000000007FFC000000000FFF7FFFFFFFFFFFF) ∧
  (⟨-1, -1, -1, -1, -1, -1, 6⟩ : LimbSetReg).value =
    0x8000000000000FFF8000000001FFF0000000003FFE0000000007FFC000000000FFF7FFFFFFFFFFFF ∧
  2 ^ 319 ≤ 0x8000000000000FFF8000000001FFF0000000003FFE0000000007FFC000000000FFF7FFFFFFFFFFFF ∧
  0x8000000000000FFF8000000001FFF0000000003FFE0000000007FFC000000000FFF7FFFFFFFFFFFF < 2 ^ 320 ∧
  2 ^ 255 - Config.P = Config.FOLD

/-- R91 (and R95, R112), which the spec derives from R90: a successful DECOMP leaves a LimbSet with the integer's value, for which VALID answers 1 and
which RECOMP turns back into the integer, in any register. -/
def Obligations.DecompThenRecompIsIdentity : Prop :=
  ∀ sd ns nd cnt s, cnt = 5 ∨ cnt = 6 → (s.readN ns).toNat < 2 ^ (51 * cnt.toNat) →
    ∃ t u, exec (.decomp sd ns cnt) s = .next t ∧
      (t.readS sd).value = (s.readN ns).toNat ∧ (t.readS sd).validate = true ∧
      exec (.valid sd) t = .next { t with rsp := some ⟨.ok, 1⟩ } ∧
      exec (.recomp nd sd) t = .next u ∧ u.readN nd = s.readN ns

/-! ## The Normalizer -/

/-- R100: NORM runs the loop of the pseudocode, which ends, and writes limbs 0 to 4 of where it ends, slot 5 zero and
count 5, to the destination alone; an empty source is a ShapeError. -/
def Obligations.NormRunsTheLoop : Prop :=
  (∀ sd ss s, (s.readS ss).cnt = 5 ∨ (s.readS ss).cnt = 6 → ∃ p f w r, NormRuns (.load (s.readS ss)) p f w ∧
    exec (.norm sd ss) s = .next { s with arch := s.arch.writeS sd r, rsp := some ⟨.ok, 0⟩ } ∧
    r.l0.toNat = w.w0 ∧ r.l1.toNat = w.w1 ∧ r.l2.toNat = w.w2 ∧ r.l3.toNat = w.w3 ∧ r.l4.toNat = w.w4 ∧
    r.l5 = 0 ∧ r.cnt = 5) ∧
  (∀ sd ss s, (s.readS ss).cnt ≠ 5 → (s.readS ss).cnt ≠ 6 →
    exec (.norm sd ss) s = .next { s with rsp := some ⟨.shapeError, 0⟩ }) ∧
  (∀ rd rs k c z d, (decode ⟨mkCw 0x9 rd rs k c z, d⟩).instr? =
    if k = 0 ∧ c = 0 ∧ z = 0 then some (.norm (.ofBits rd) (.ofBits rs)) else none)

/-- R101: NORM's closed form, which the spec derives from R98 to R100. With V(k) the repeatedly folded value and K the least k with V(k) below 2^255, NORM writes
the five digits of V(K) and performs exactly K folds and K + 1 carry passes. -/
def Obligations.NormEqualsClosedForm : Prop :=
  ∀ sd ss s, (s.readS ss).cnt = 5 ∨ (s.readS ss).cnt = 6 → ∃ K r w,
    (∀ k, k < K → 2 ^ 255 ≤ foldedValue (s.readS ss).value k) ∧ foldedValue (s.readS ss).value K < 2 ^ 255 ∧
    exec (.norm sd ss) s = .next { s with arch := s.arch.writeS sd r, rsp := some ⟨.ok, 0⟩ } ∧
    (∀ i, i.toNat ≤ 4 → (r.slot? i).map BitVec.toNat =
      some (foldedValue (s.readS ss).value K / 2 ^ (51 * i.toNat) % 2 ^ 51)) ∧
    r.l5 = 0 ∧ r.cnt = 5 ∧ NormRuns (.load (s.readS ss)) (K + 1) K w

/-- R102, which the spec derives from R98: one carry pass leaves limbs 0 to 4 in bound, so the inner loop never runs its body twice in a row. -/
def Obligations.OneCarryPassIsEnough : Prop :=
  (∀ w, (carryPass w).inBound = true) ∧ ∀ w p w', Settles w p w' → p = 1 ∧ w' = carryPass w

/-- R103, which the spec derives from R98 to R101: for every content of a LimbSet register the loop performs at most 2 folds and 3 carry passes, and two folds
do occur. -/
def Obligations.NormNeedsAtMostThreePasses : Prop :=
  (∀ r p f w, isLs r.cnt = true → NormRuns (.load r) p f w → p ≤ 3 ∧ f ≤ 2) ∧
  ∃ w, NormRuns (.load ⟨0x7FFFFFFFFFFFF, 0x7FFFFFFFFFFFF, 0x7FFFFFFFFFFFF, 0x7FFFFFFFFFFFF, 0x7FFFFFFFFFFFF, 1, 6⟩)
    3 2 w ∧ w = ⟨0x25, 0, 0, 0, 0, 0⟩

/-- R38 (d) and R103, which the spec derives: no working limb ever reaches 2^70, inside a carry pass either. The
largest is limb 0 after the first fold when all six input slots are 2^64 − 1. -/
def Obligations.WorkingLimbsStayBelow70Bits : Prop :=
  (∀ r i w, NormHolds (.load r) i w →
    w.w0 ≤ 0x130008000000025FEC ∧ w.w1 ≤ 0x130008000000025FEC ∧ w.w2 ≤ 0x130008000000025FEC ∧
    w.w3 ≤ 0x130008000000025FEC ∧ w.w4 ≤ 0x130008000000025FEC ∧ w.w5 ≤ 0x130008000000025FEC) ∧
  0x130008000000025FEC < 2 ^ 70 ∧
  ∃ w, NormHolds (.load ⟨-1, -1, -1, -1, -1, -1, 6⟩) 0 w ∧ w.w0 = 0x130008000000025FEC

/-- R104: the result is valid, congruent to the input mod p, below 2^255 (this the spec derives from R101) and of count
5, so that RDC then answers 5 and VALID 1. -/
def Obligations.NormResultIsValidAndCongruent : Prop :=
  ∀ sd ss s, (s.readS ss).cnt = 5 ∨ (s.readS ss).cnt = 6 → ∃ t, exec (.norm sd ss) s = .next t ∧
    (t.readS sd).validate = true ∧ (t.readS sd).value % Config.P = (s.readS ss).value % Config.P ∧
    (t.readS sd).value < 2 ^ 255 ∧
    exec (.rdc sd) t = .next { t with rsp := some ⟨.ok, 5⟩ } ∧
    exec (.valid sd) t = .next { t with rsp := some ⟨.ok, 1⟩ }

/-- R105: the result is below 2^255 and not the least residue. Every value in [p, 2^255) is the value of some NORM
result, 2^256 − 38 normalizes to p, and two sources congruent mod p can normalize to LimbSets that are not equal. -/
def Obligations.NormResultIsNotTheLeastResidue : Prop :=
  (∀ sd ss s t, exec (.norm sd ss) s = .next t → t.rsp = some ⟨.ok, 0⟩ → (t.readS sd).value < 2 ^ 255) ∧
  (∀ v sd ss, Config.P ≤ v → v < 2 ^ 255 → ∃ s t, exec (.norm sd ss) s = .next t ∧ t.rsp = some ⟨.ok, 0⟩ ∧
    (t.readS sd).value = v) ∧
  (∀ sd ss s, s.readS ss =
      ⟨0x7FFFFFFFFFFDA, 0x7FFFFFFFFFFFF, 0x7FFFFFFFFFFFF, 0x7FFFFFFFFFFFF, 0x7FFFFFFFFFFFF, 1, 6⟩ →
    exec (.norm sd ss) s = .next { s with
      arch := s.arch.writeS sd
        ⟨0x7FFFFFFFFFFED, 0x7FFFFFFFFFFFF, 0x7FFFFFFFFFFFF, 0x7FFFFFFFFFFFF, 0x7FFFFFFFFFFFF, 0, 5⟩,
      rsp := some ⟨.ok, 0⟩ }) ∧
  (∀ sd ss, ∃ s s' t t', (s.readS ss).value % Config.P = (s'.readS ss).value % Config.P ∧
    exec (.norm sd ss) s = .next t ∧ t.rsp = some ⟨.ok, 0⟩ ∧
    exec (.norm sd ss) s' = .next t' ∧ t'.rsp = some ⟨.ok, 0⟩ ∧ (t.readS sd).sameSet (t'.readS sd) = false)

/-- R106 (its register form the spec derives from R100): normalizing a normalized set changes nothing, in all seven fields. -/
def Obligations.NormIsIdempotent : Prop :=
  ∀ sd ss sd' s t, exec (.norm sd ss) s = .next t → t.rsp = some ⟨.ok, 0⟩ →
    ∃ u, exec (.norm sd' sd) t = .next u ∧ u.rsp = some ⟨.ok, 0⟩ ∧ u.readS sd' = t.readS sd

/-- R108, which the spec derives from R100: a valid input with value below 2^255 is returned unchanged as a 5-limb set, values in [p, 2^255)
too; so NORM is the identity on every result of DECOMP with count 5 and on the result of MODP. -/
def Obligations.NormKeepsValidSmallSets : Prop :=
  (∀ sd ss s, (s.readS ss).cnt = 5 ∨ (s.readS ss).cnt = 6 → (s.readS ss).validate = true →
    (s.readS ss).value < 2 ^ 255 →
    exec (.norm sd ss) s = .next { s with
      arch := s.arch.writeS sd { s.readS ss with l5 := 0, cnt := 5 }, rsp := some ⟨.ok, 0⟩ }) ∧
  (∀ sd' sd ns s t, exec (.decomp sd ns 5) s = .next t → t.rsp = some ⟨.ok, 0⟩ →
    ∃ u, exec (.norm sd' sd) t = .next u ∧ u.readS sd' = t.readS sd) ∧
  (∀ sd' sd s, ∃ t u, exec (.modp sd) s = .next t ∧ exec (.norm sd' sd) t = .next u ∧ u.readS sd' = t.readS sd)

/-- R109 (its register form the spec derives from R104): after `NORM Sd, Ss; RECOMP Na, Ss; RECOMP Nb, Sd` the two integers agree mod p. -/
def Obligations.NormCongruenceThroughRecomp : Prop :=
  ∀ sd ss na nb s, sd ≠ ss → (s.readS ss).cnt = 5 ∨ (s.readS ss).cnt = 6 →
    ∃ t u v, exec (.norm sd ss) s = .next t ∧ exec (.recomp na ss) t = .next u ∧ exec (.recomp nb sd) u = .next v ∧
      (v.readN nb).toNat % Config.P = (v.readN na).toNat % Config.P

/-! ## The FieldConstant registry -/

/-- R114: MODP writes the limbs of p, slot 5 zero and count 5, from any state, and cannot fail. -/
def Obligations.ModpCopiesTheModulus : Prop :=
  (∀ sd s, exec (.modp sd) s = .next { s with
    arch := s.arch.writeS sd
      ⟨0x7FFFFFFFFFFED, 0x7FFFFFFFFFFFF, 0x7FFFFFFFFFFFF, 0x7FFFFFFFFFFFF, 0x7FFFFFFFFFFFF, 0, 5⟩,
    rsp := some ⟨.ok, 0⟩ }) ∧
  (∀ rd rs k c z d, (decode ⟨mkCw 0xB rd rs k c z, d⟩).instr? =
    if rs = 0 ∧ k = 0 ∧ c = 0 ∧ z = 0 then some (.modp (.ofBits rd)) else none)

/-- R115, which the spec derives from R114: recomposing the constant gives 2^255 − 19, and the constant is what DECOMP with count 5 makes of that
integer. -/
def Obligations.ModulusIsSelfConsistent : Prop :=
  (∀ sd nd s, ∃ t u, exec (.modp sd) s = .next t ∧ exec (.recomp nd sd) t = .next u ∧
    (u.readN nd).toNat = 2 ^ 255 - 19) ∧
  (∀ sd ns s, (s.readN ns).toNat = 2 ^ 255 - 19 → exec (.decomp sd ns 5) s = exec (.modp sd) s) ∧
  pLimbs = digits51 (2 ^ 255 - 19) 5

/-! ## Pseudo-instructions -/

/-- The expansions of LDN and LDLS (R66), and what executing them does, which follows from R49, R72, R74 and R82: LDN
loads all 320 bits of v, and LDLS 5 or 6 limbs and their number; neither changes another register, and LDLS with 5 limbs
leaves slot 5. -/
def Obligations.PseudoInstructionsLoad : Prop :=
  (∀ nd v, ldn nd v = [.wrn nd 0 (v.extractLsb' 0 64), .wrn nd 1 (v.extractLsb' 64 64),
    .wrn nd 2 (v.extractLsb' 128 64), .wrn nd 3 (v.extractLsb' 192 64), .wrn nd 4 (v.extractLsb' 256 64)]) ∧
  (∀ sd l0 l1 l2 l3 l4, ldls sd [l0, l1, l2, l3, l4] =
    [.wrl sd 0 l0, .wrl sd 1 l1, .wrl sd 2 l2, .wrl sd 3 l3, .wrl sd 4 l4, .mkls sd 5 5]) ∧
  (∀ sd l0 l1 l2 l3 l4 l5, ldls sd [l0, l1, l2, l3, l4, l5] =
    [.wrl sd 0 l0, .wrl sd 1 l1, .wrl sd 2 l2, .wrl sd 3 l3, .wrl sd 4 l4, .wrl sd 5 l5, .mkls sd 6 6]) ∧
  (∀ nd v s, execAll (ldn nd v) s = .next { s with arch := s.arch.writeN nd v, rsp := some ⟨.ok, 0⟩ }) ∧
  (∀ sd l0 l1 l2 l3 l4 s, execAll (ldls sd [l0, l1, l2, l3, l4]) s = .next { s with
    arch := s.arch.writeS sd ⟨l0, l1, l2, l3, l4, (s.readS sd).l5, 5⟩, rsp := some ⟨.ok, 0⟩ }) ∧
  (∀ sd l0 l1 l2 l3 l4 l5 s, execAll (ldls sd [l0, l1, l2, l3, l4, l5]) s = .next { s with
    arch := s.arch.writeS sd ⟨l0, l1, l2, l3, l4, l5, 6⟩, rsp := some ⟨.ok, 0⟩ })

/-! ## The port at its pins -/

/-- R140 to R142: on every edge with `rst` at 1 the registers take their reset values, both handshake outputs are 0, a
command in flight gets no response, and on the first edge with `rst` at 0 the unit is ready and offers nothing. The
port is the model's (log entry 9). -/
def Obligations.PortReset : Prop :=
  ∀ (p : Port) (pins pins' : PinsIn), pins.rst = true → pins'.rst = false → p.out pins = ⟨false, none⟩ ∧
    ∃ q, p.edge pins = .next q ∧ q.unit.arch = State.reset.arch ∧ q.out pins' = ⟨true, none⟩

/-- R61, R49: a command is accepted exactly where valid and ready meet, and its effect is the step's; while one is in
flight no register changes, and it stays in flight, response unchanged, until valid and ready meet on the response
channel. The port is the model's (log entry 9), and that an offered response is not withdrawn is its choice (log entry
17). -/
def Obligations.PortOneCommandInFlight : Prop :=
  (∀ (p : Port) (pins : PinsIn), pins.rst = false → (p.out pins).cmdReady = true → pins.cmdValid = true →
    ∃ t q, step (p.unit.present pins.cmd) = .next t ∧ p.edge pins = .next q ∧ q.unit = t ∧
      ∀ pins', (q.out pins').cmdReady = false) ∧
  (∀ (p : Port) (pins : PinsIn), pins.rst = false → (p.out pins).cmdReady = true → pins.cmdValid = false → p.edge pins = .next p) ∧
  (∀ (p : Port) (pins : PinsIn), pins.rst = false → (p.out pins).cmdReady = false →
    ∃ q, p.edge pins = .next q ∧ q.unit.arch = p.unit.arch ∧
      (if (p.out pins).rsp.isSome = true ∧ pins.rspReady = true then q.unit.rsp = none
        else q.unit.rsp = p.unit.rsp))

/-- R151: the response to an accepted command is offered a finite number of edges later, at least one, whatever the
host does on the pins meanwhile short of a reset, and not before. The number is a free value (log entry 9). -/
def Obligations.PortAnswersAfterItsLatency : Prop :=
  ∀ (p : Port) (pins : PinsIn), pins.rst = false → (p.out pins).cmdReady = true → pins.cmdValid = true → ∃ q r n,
    p.edge pins = .next q ∧ q.unit.rsp = some r ∧
    ∀ later : List PinsIn, (∀ x ∈ later, x.rst = false) → later.length ≤ n → ∃ q', q.edges later = .next q' ∧
      ∀ x, x.rst = false → (q'.out x).rsp = if later.length = n then some r else none
end

