-- ==== Sys2Proof/Laws/Decode.lean ====
section
/-! SUPPORT. The fields of a command word put together from fields, register numbers and their names, and what the
decoder's acceptance says. -/

namespace Sys2Proof

/-! ## Fields (R57) -/

section Fields

variable (op : BitVec 4) (rd rs : BitVec 2) (k c : BitVec 3) (z : BitVec 2)

@[simp] theorem mkCw_op : Cw.op (mkCw op rd rs k c z) = op := by
  apply BitVec.eq_of_getLsbD_eq
  intro i hi
  simp only [Cw.op, mkCw, BitVec.getLsbD_extractLsb', BitVec.getLsbD_append]
  interval_cases i <;> simp

@[simp] theorem mkCw_rd : Cw.rd (mkCw op rd rs k c z) = rd := by
  apply BitVec.eq_of_getLsbD_eq
  intro i hi
  simp only [Cw.rd, mkCw, BitVec.getLsbD_extractLsb', BitVec.getLsbD_append]
  interval_cases i <;> simp

@[simp] theorem mkCw_rs : Cw.rs (mkCw op rd rs k c z) = rs := by
  apply BitVec.eq_of_getLsbD_eq
  intro i hi
  simp only [Cw.rs, mkCw, BitVec.getLsbD_extractLsb', BitVec.getLsbD_append]
  interval_cases i <;> simp

@[simp] theorem mkCw_k : Cw.k (mkCw op rd rs k c z) = k := by
  apply BitVec.eq_of_getLsbD_eq
  intro i hi
  simp only [Cw.k, mkCw, BitVec.getLsbD_extractLsb', BitVec.getLsbD_append]
  interval_cases i <;> simp

@[simp] theorem mkCw_c : Cw.c (mkCw op rd rs k c z) = c := by
  apply BitVec.eq_of_getLsbD_eq
  intro i hi
  simp only [Cw.c, mkCw, BitVec.getLsbD_extractLsb', BitVec.getLsbD_append]
  interval_cases i <;> simp

@[simp] theorem mkCw_z : Cw.z (mkCw op rd rs k c z) = z := by
  apply BitVec.eq_of_getLsbD_eq
  intro i hi
  simp only [Cw.z, mkCw, BitVec.getLsbD_extractLsb', BitVec.getLsbD_append]
  interval_cases i <;> simp

/-- The bitwise AND of two command words, field by field. -/
theorem mkCw_and (op' : BitVec 4) (rd' rs' : BitVec 2) (k' c' : BitVec 3) (z' : BitVec 2) :
    mkCw op rd rs k c z &&& mkCw op' rd' rs' k' c' z' =
      mkCw (op &&& op') (rd &&& rd') (rs &&& rs') (k &&& k') (c &&& c') (z &&& z') := by
  apply BitVec.eq_of_getLsbD_eq
  intro i hi
  simp only [mkCw, BitVec.getLsbD_and, BitVec.getLsbD_append]
  repeat' split
  all_goals rfl

/-- Two command words are equal exactly if their fields are. -/
theorem mkCw_inj (op' : BitVec 4) (rd' rs' : BitVec 2) (k' c' : BitVec 3) (z' : BitVec 2) :
    mkCw op rd rs k c z = mkCw op' rd' rs' k' c' z' ↔
      op = op' ∧ rd = rd' ∧ rs = rs' ∧ k = k' ∧ c = c' ∧ z = z' := by
  refine ⟨fun h => ?_, by rintro ⟨rfl, rfl, rfl, rfl, rfl, rfl⟩; rfl⟩
  have h1 := congrArg Cw.op h
  have h2 := congrArg Cw.rd h
  have h3 := congrArg Cw.rs h
  have h4 := congrArg Cw.k h
  have h5 := congrArg Cw.c h
  have h6 := congrArg Cw.z h
  rw [mkCw_op, mkCw_op] at h1
  rw [mkCw_rd, mkCw_rd] at h2
  rw [mkCw_rs, mkCw_rs] at h3
  rw [mkCw_k, mkCw_k] at h4
  rw [mkCw_c, mkCw_c] at h5
  rw [mkCw_z, mkCw_z] at h6
  exact ⟨h1, h2, h3, h4, h5, h6⟩

end Fields

/-- Every command word is put together from its own fields. -/
theorem mkCw_fields (cw : Cw) : mkCw cw.op cw.rd cw.rs cw.k cw.c cw.z = cw := by
  apply BitVec.eq_of_getLsbD_eq
  intro i hi
  simp only [mkCw, Cw.op, Cw.rd, Cw.rs, Cw.k, Cw.c, Cw.z, BitVec.getLsbD_append, BitVec.getLsbD_extractLsb']
  interval_cases i <;> simp

/-! ## Register numbers -/

@[simp] theorem NReg.ofBits_bits (r : NReg) : NReg.ofBits r.bits = r := by cases r <;> rfl
@[simp] theorem SReg.ofBits_bits (r : SReg) : SReg.ofBits r.bits = r := by cases r <;> rfl
@[simp] theorem NReg.bits_ofBits (b : BitVec 2) : (NReg.ofBits b).bits = b := by revert b; decide
@[simp] theorem SReg.bits_ofBits (b : BitVec 2) : (SReg.ofBits b).bits = b := by revert b; decide

/-! ## Acceptance -/

/-- `accept` gives the instruction exactly if both checks pass. -/
theorem accept_legal (u x : Bool) (bad : Illegal) (i j : Instr) :
    accept u x bad i = .legal j ↔ u = true ∧ x = true ∧ i = j := by
  cases u <;> cases x <;> simp [accept]

theorem accept_instr (u x : Bool) (bad : Illegal) (i : Instr) :
    (accept u x bad i).instr? = if u = true ∧ x = true then some i else none := by
  cases u <;> cases x <;> simp [accept, Decoded.instr?]

theorem instr_eq_some (d : Decoded) (i : Instr) : d.instr? = some i ↔ d = .legal i := by
  cases d <;> simp [Decoded.instr?]

theorem instr_eq_none (d : Decoded) : d.instr? = none ↔ ∃ why, d = .illegal why := by
  cases d <;> simp [Decoded.instr?]

/-- Everything the decoder accepts, on a word put together from fields; with `mkCw_fields` this is every word. -/
theorem decode_mkCw (op : BitVec 4) (rd rs : BitVec 2) (k c : BitVec 3) (z : BitVec 2) (d : Word) (i : Instr) :
    decode ⟨mkCw op rd rs k c z, d⟩ = .legal i ↔ z = 0 ∧
      ((op = 1 ∧ rs = 0 ∧ c = 0 ∧ k.toNat ≤ 4 ∧ .wrn (.ofBits rd) k d = i) ∨
      (op = 2 ∧ rd = 0 ∧ c = 0 ∧ k.toNat ≤ 4 ∧ .rdn (.ofBits rs) k = i) ∨
      (op = 3 ∧ rs = 0 ∧ c = 0 ∧ k.toNat ≤ 5 ∧ .wrl (.ofBits rd) k d = i) ∨
      (op = 4 ∧ rd = 0 ∧ c = 0 ∧ k.toNat ≤ 5 ∧ .rdl (.ofBits rs) k = i) ∨
      (op = 5 ∧ rs = 0 ∧ .mkls (.ofBits rd) k c = i) ∨
      (op = 6 ∧ rd = 0 ∧ k = 0 ∧ c = 0 ∧ .rdc (.ofBits rs) = i) ∨
      (op = 7 ∧ rd = 0 ∧ k = 0 ∧ c = 0 ∧ .valid (.ofBits rs) = i) ∨
      (op = 8 ∧ k = 0 ∧ .decomp (.ofBits rd) (.ofBits rs) c = i) ∨
      (op = 9 ∧ k = 0 ∧ c = 0 ∧ .norm (.ofBits rd) (.ofBits rs) = i) ∨
      (op = 10 ∧ k = 0 ∧ c = 0 ∧ .recomp (.ofBits rd) (.ofBits rs) = i) ∨
      (op = 11 ∧ rs = 0 ∧ k = 0 ∧ c = 0 ∧ .modp (.ofBits rd) = i)) := by
  unfold decode
  rw [mkCw_z, mkCw_op, mkCw_rd, mkCw_rs, mkCw_k, mkCw_c]
  by_cases hz : z = 0
  · rw [if_neg (not_not_intro hz)]
    obtain ⟨⟨n, hn⟩⟩ := op
    interval_cases n <;> simp [hz, accept_legal, and_assoc]
  · rw [if_pos hz]
    exact iff_of_false (by simp) fun h => hz h.1

end Sys2Proof
end

