-- ==== Sys2Proof/Laws/Operands.lean ====
section
/-! SUPPORT. What the operand forms and the pure functions over limbs do: element reads after element writes, the
legal counts, and a register's value as digits. -/

namespace Sys2Proof.Machine

/-! ## Words of an integer register -/

/-- A word's number: the bits of the register from 64·j up. -/
theorem wordOf?_toNat {v : Big} {j : Count} {w : Word} (h : wordOf? v j = some w) :
    w.toNat = v.toNat / 2 ^ (64 * j.toNat) % 2 ^ 64 := by
  simp only [wordOf?, Option.ite_none_right_eq_some, Option.some.injEq] at h
  rw [← h.2]
  simp [Nat.shiftRight_eq_div_pow]

/-- A word index in range names a word. -/
theorem wordOf?_isSome (v : Big) (j : Count) : (wordOf? v j).isSome = decide (j.toNat ≤ 4) := by
  simp only [wordOf?, Config.NWORDS]
  split <;> simp_all <;> omega

/-- A word index in range can be written. -/
theorem withWord?_isSome (v : Big) (j : Count) (d : Word) : (withWord? v j d).isSome = decide (j.toNat ≤ 4) := by
  simp only [withWord?, Config.NWORDS]
  split <;> simp_all <;> omega

/-- The bits of a register with one word replaced. -/
theorem withWord?_getLsbD {v v' : Big} {j : Count} {d : Word} (h : withWord? v j d = some v') (i : Nat) :
    v'.getLsbD i = if 64 * j.toNat ≤ i ∧ i < 64 * j.toNat + 64 then d.getLsbD (i - 64 * j.toNat) else v.getLsbD i := by
  simp only [withWord?, Option.ite_none_right_eq_some, Option.some.injEq] at h
  obtain ⟨hj, rfl⟩ := h
  simp only [BitVec.getLsbD_or, BitVec.getLsbD_and, BitVec.getLsbD_not, BitVec.getLsbD_shiftLeft,
    BitVec.getLsbD_setWidth, BitVec.getLsbD_allOnes, Config.LB, Config.NWORDS] at hj ⊢
  by_cases hi : i < 320
  · by_cases h1 : i < 64 * j.toNat
    · have h2 : ¬ (64 * j.toNat ≤ i) := by omega
      simp [hi, h1, h2]
    · by_cases h3 : i < 64 * j.toNat + 64
      · have h2 : 64 * j.toNat ≤ i := by omega
        have h4 : i - 64 * j.toNat < 320 := by omega
        have h5 : i - 64 * j.toNat < 64 := by omega
        simp [hi, h1, h2, h3, h4, h5]
      · have h5 : ¬ (i - 64 * j.toNat < 64) := by omega
        have h6 : d.getLsbD (i - 64 * j.toNat) = false := BitVec.getLsbD_of_ge d _ (by omega)
        simp [hi, h1, h3, h5, h6]
  · have h7 : v.getLsbD i = false := BitVec.getLsbD_of_ge v i (by omega)
    have h8 : ¬ (i < 64 * j.toNat + 64) := by omega
    simp [hi, h7, h8]

/-- The bits of a word. -/
theorem wordOf?_getLsbD {v : Big} {j : Count} {w : Word} (h : wordOf? v j = some w) (i : Nat) :
    w.getLsbD i = (decide (i < 64) && v.getLsbD (64 * j.toNat + i)) := by
  simp only [wordOf?, Option.ite_none_right_eq_some, Option.some.injEq] at h
  rw [← h.2]
  simp [BitVec.getLsbD_ushiftRight]

/-- Reading the word written gives the data. -/
theorem wordOf?_withWord?_same {v v' : Big} {j : Count} {d : Word} (h : withWord? v j d = some v') :
    wordOf? v' j = some d := by
  have hj : j.toNat ≤ 4 := by
    have := withWord?_isSome v j d
    simpa [h] using this
  obtain ⟨w, hw⟩ := Option.isSome_iff_exists.mp ((wordOf?_isSome v' j).trans (decide_eq_true hj))
  rw [hw, Option.some.injEq]
  apply BitVec.eq_of_getLsbD_eq
  intro i hi
  rw [wordOf?_getLsbD hw, withWord?_getLsbD h]
  simp [hi]

/-- Reading another word gives what was there. -/
theorem wordOf?_withWord?_ne {v v' : Big} {j m : Count} {d : Word} (h : withWord? v j d = some v') (hm : m ≠ j) :
    wordOf? v' m = wordOf? v m := by
  have hne : m.toNat ≠ j.toNat := fun e => hm (BitVec.eq_of_toNat_eq e)
  by_cases hb : m.toNat ≤ 4
  · obtain ⟨w, hw⟩ := Option.isSome_iff_exists.mp ((wordOf?_isSome v m).trans (decide_eq_true hb))
    obtain ⟨w', hw'⟩ := Option.isSome_iff_exists.mp ((wordOf?_isSome v' m).trans (decide_eq_true hb))
    rw [hw, hw', Option.some.injEq]
    apply BitVec.eq_of_getLsbD_eq
    intro i hi
    rw [wordOf?_getLsbD hw, wordOf?_getLsbD hw', withWord?_getLsbD h, if_neg (by omega)]
  · have h1 := wordOf?_isSome v m
    have h2 := wordOf?_isSome v' m
    simp only [hb, decide_false, Option.isSome_eq_false_iff, Option.isNone_iff_eq_none] at h1 h2
    rw [h1, h2]

/-- Two registers with the same five words are equal. -/
theorem eq_of_words {v v' : Big} (h : ∀ j : Count, wordOf? v j = wordOf? v' j) : v = v' := by
  apply BitVec.eq_of_getLsbD_eq
  intro i hi
  have hj : (BitVec.ofNat 3 (i / 64)).toNat = i / 64 := by simp; omega
  have hb : (BitVec.ofNat 3 (i / 64)).toNat ≤ 4 := by omega
  obtain ⟨w, hw⟩ := Option.isSome_iff_exists.mp ((wordOf?_isSome v _).trans (decide_eq_true hb))
  have hw' := (h (BitVec.ofNat 3 (i / 64))) ▸ hw
  have e := wordOf?_getLsbD hw (i % 64)
  have e' := wordOf?_getLsbD hw' (i % 64)
  rw [hj, Nat.div_add_mod] at e e'
  have hlt : i % 64 < 64 := Nat.mod_lt _ (by decide)
  simp only [hlt, decide_true, Bool.true_and] at e e'
  rw [← e, ← e']

/-! ## Slots of a LimbSet register -/

/-- A slot index in range names a slot. -/
theorem LimbSetReg.slot?_isSome (r : LimbSetReg) (i : Count) : (r.slot? i).isSome = decide (i.toNat ≤ 5) := by
  simp only [LimbSetReg.slot?, LimbSetReg.slots]
  obtain ⟨⟨n, hn⟩⟩ := i
  interval_cases n <;> rfl

/-- A slot index in range can be written. -/
theorem LimbSetReg.withSlot?_isSome (r : LimbSetReg) (i : Count) (d : Word) :
    (r.withSlot? i d).isSome = decide (i.toNat ≤ 5) := by
  obtain ⟨⟨n, hn⟩⟩ := i
  interval_cases n <;> rfl

/-- Reading a slot after a slot was written. -/
theorem LimbSetReg.slot?_withSlot? {r r' : LimbSetReg} {i : Count} {d : Word} (h : r.withSlot? i d = some r')
    (m : Count) : r'.slot? m = if m = i then some d else r.slot? m := by
  obtain ⟨⟨n, hn⟩⟩ := i
  obtain ⟨⟨m, hm⟩⟩ := m
  interval_cases n <;> simp only [LimbSetReg.withSlot?, BitVec.toNat, Option.some.injEq, reduceCtorEq] at h <;>
    subst h <;> interval_cases m <;> rfl

/-- Writing a slot leaves the count. -/
theorem LimbSetReg.withSlot?_cnt {r r' : LimbSetReg} {i : Count} {d : Word} (h : r.withSlot? i d = some r') :
    r'.cnt = r.cnt := by
  obtain ⟨⟨n, hn⟩⟩ := i
  interval_cases n <;> simp only [LimbSetReg.withSlot?, BitVec.toNat, Option.some.injEq, reduceCtorEq] at h <;>
    subst h <;> rfl

/-- Two registers with the same six slots and the same count are equal. -/
theorem LimbSetReg.eq_of_slots {r r' : LimbSetReg} (hc : r.cnt = r'.cnt) (h : ∀ i : Count, r.slot? i = r'.slot? i) :
    r = r' := by
  have h0 := h 0; have h1 := h 1; have h2 := h 2; have h3 := h 3; have h4 := h 4; have h5 := h 5
  cases r; cases r'
  simp_all [LimbSetReg.slot?, LimbSetReg.slots]

/-! ## Counts and limb sets -/

/-- The legal counts are 5 and 6. -/
theorem isLs_iff (c : Count) : isLs c = true ↔ c = 5 ∨ c = 6 := by revert c; decide

theorem isLs_false_iff (c : Count) : isLs c = false ↔ c ≠ 5 ∧ c ≠ 6 := by revert c; decide

/-- The limbs of a 5-limb set. -/
theorem LimbSetReg.limbs_five {r : LimbSetReg} (h : r.cnt = 5) : r.limbs = [r.l0, r.l1, r.l2, r.l3, r.l4] := by
  simp [LimbSetReg.limbs, LimbSetReg.slots, h]

/-- The limbs of a 6-limb set. -/
theorem LimbSetReg.limbs_six {r : LimbSetReg} (h : r.cnt = 6) :
    r.limbs = [r.l0, r.l1, r.l2, r.l3, r.l4, r.l5] := by
  simp [LimbSetReg.limbs, LimbSetReg.slots, h]

/-- The value of a 5-limb set. -/
theorem LimbSetReg.value_five {r : LimbSetReg} (h : r.cnt = 5) : r.value = r.l0.toNat + r.l1.toNat * 2 ^ 51 +
    r.l2.toNat * 2 ^ 102 + r.l3.toNat * 2 ^ 153 + r.l4.toNat * 2 ^ 204 := by
  simp [LimbSetReg.value, LimbSetReg.limbs_five h, valueFrom, Config.W]
  omega

/-- The value of a 6-limb set. -/
theorem LimbSetReg.value_six {r : LimbSetReg} (h : r.cnt = 6) : r.value = r.l0.toNat + r.l1.toNat * 2 ^ 51 +
    r.l2.toNat * 2 ^ 102 + r.l3.toNat * 2 ^ 153 + r.l4.toNat * 2 ^ 204 + r.l5.toNat * 2 ^ 255 := by
  simp [LimbSetReg.value, LimbSetReg.limbs_six h, valueFrom, Config.W]
  omega

/-- A digit of `digits51`, by division. -/
theorem digits51_getD (v c i : Nat) :
    (digits51 v c).getD i 0 = if i < c then v / 2 ^ (51 * i) % 2 ^ 51 else 0 := by
  unfold digits51
  by_cases h : i < c
  · simp only [Config.W, Config.MASK51, Nat.shiftRight_eq_div_pow, Nat.and_two_pow_sub_one_eq_mod]
    simp [h]
  · simp [h]

end Sys2Proof.Machine
end

