-- ==== Sys2Proof/Laws/State.lean ====
section
/-! SUPPORT. One lemma for each field and each update of the state, so that no later proof unfolds a record update or a
register file. -/

namespace Sys2Proof.Machine

variable (a : Arch) (s : State)

/-! ## Register files -/

@[simp] theorem Arch.readN_writeN (r q : NReg) (v : Big) :
    (a.writeN r v).readN q = if q = r then v else a.readN q := by
  cases r <;> cases q <;> rfl

@[simp] theorem Arch.readS_writeS (r q : SReg) (v : LimbSetReg) :
    (a.writeS r v).readS q = if q = r then v else a.readS q := by
  cases r <;> cases q <;> rfl

@[simp] theorem Arch.readS_writeN (r : NReg) (q : SReg) (v : Big) : (a.writeN r v).readS q = a.readS q := by
  cases r <;> cases q <;> rfl

@[simp] theorem Arch.readN_writeS (r : SReg) (q : NReg) (v : LimbSetReg) : (a.writeS r v).readN q = a.readN q := by
  cases r <;> cases q <;> rfl

@[simp] theorem Arch.writeN_writeN (r : NReg) (v w : Big) : (a.writeN r v).writeN r w = a.writeN r w := by
  cases r <;> rfl

@[simp] theorem Arch.writeS_writeS (r : SReg) (v w : LimbSetReg) : (a.writeS r v).writeS r w = a.writeS r w := by
  cases r <;> rfl

@[simp] theorem Arch.writeN_readN (r : NReg) : a.writeN r (a.readN r) = a := by cases r <;> rfl

@[simp] theorem Arch.writeS_readS (r : SReg) : a.writeS r (a.readS r) = a := by cases r <;> rfl

@[simp] theorem Arch.reset_readN (r : NReg) : Arch.reset.readN r = 0 := by cases r <;> rfl

@[simp] theorem Arch.reset_readS (r : SReg) : Arch.reset.readS r = .zero := by cases r <;> rfl

/-- The architectural state is its eight registers. -/
theorem Arch.ext_registers {a b : Arch} (hN : ∀ r, a.readN r = b.readN r) (hS : ∀ r, a.readS r = b.readS r) :
    a = b := by
  have n0 := hN .n0; have n1 := hN .n1; have n2 := hN .n2; have n3 := hN .n3
  have s0 := hS .s0; have s1 := hS .s1; have s2 := hS .s2; have s3 := hS .s3
  cases a; cases b
  simp_all [Arch.readN, Arch.readS]

/-! ## The machine -/

theorem State.readN_arch (r : NReg) : s.readN r = s.arch.readN r := rfl
theorem State.readS_arch (r : SReg) : s.readS r = s.arch.readS r := rfl

@[simp] theorem State.writeN_arch (r : NReg) (v : Big) : (s.writeN r v).arch = s.arch.writeN r v := rfl
@[simp] theorem State.writeN_rsp (r : NReg) (v : Big) : (s.writeN r v).rsp = s.rsp := rfl
@[simp] theorem State.writeN_input (r : NReg) (v : Big) : (s.writeN r v).input = s.input := rfl
@[simp] theorem State.writeS_arch (r : SReg) (v : LimbSetReg) : (s.writeS r v).arch = s.arch.writeS r v := rfl
@[simp] theorem State.writeS_rsp (r : SReg) (v : LimbSetReg) : (s.writeS r v).rsp = s.rsp := rfl
@[simp] theorem State.writeS_input (r : SReg) (v : LimbSetReg) : (s.writeS r v).input = s.input := rfl
@[simp] theorem State.present_arch (cmd : Command) : (s.present cmd).arch = s.arch := rfl
@[simp] theorem State.present_rsp (cmd : Command) : (s.present cmd).rsp = s.rsp := rfl
@[simp] theorem State.present_input (cmd : Command) : (s.present cmd).input = .command cmd :: s.input := rfl
@[simp] theorem takeReset_arch : (takeReset s).arch = .reset := rfl
@[simp] theorem takeReset_rsp : (takeReset s).rsp = none := rfl
@[simp] theorem takeReset_input : (takeReset s).input = s.input := rfl

/-! ## The end of a command -/

theorem respond_eq (v : Word) : respond v s = .next { s with rsp := some ⟨.ok, v⟩ } := rfl
theorem done_eq : done s = .next { s with rsp := some ⟨.ok, 0⟩ } := rfl
theorem raise_eq (e : CmdError) : raise e s = .next { s with rsp := some ⟨e.status, 0⟩ } := rfl

/-- The next state of a command that wrote one LimbSet register. -/
theorem done_writeS (r : SReg) (v : LimbSetReg) :
    done (s.writeS r v) = .next { s with arch := s.arch.writeS r v, rsp := some ⟨.ok, 0⟩ } := rfl

/-- The next state of a command that wrote one integer register. -/
theorem done_writeN (r : NReg) (v : Big) :
    done (s.writeN r v) = .next { s with arch := s.arch.writeN r v, rsp := some ⟨.ok, 0⟩ } := rfl

/-- An error never answers OK. -/
@[simp] theorem CmdError.status_ne_ok (e : CmdError) : e.status ≠ .ok := by cases e <;> simp [CmdError.status]

end Sys2Proof.Machine
end

