-- ==== Sys2Proof/Laws/Exec.lean ====
section
/-! SUPPORT. One lemma for each meaning that says everything it can do: the condition under which it succeeds with the
next state it then gives, and the error it raises otherwise. -/

namespace Sys2Proof.Machine

variable (s : State)

theorem execWrn_cases (nd : NReg) (j : Count) (data : Word) :
    (j.toNat ≤ 4 ∧ ∃ v, withWord? (s.readN nd) j data = some v ∧ execWrn nd j data s = done (s.writeN nd v)) ∨
    (5 ≤ j.toNat ∧ execWrn nd j data s = raise .illegal s) := by
  have h := withWord?_isSome (s.readN nd) j data
  unfold execWrn
  cases e : withWord? (s.readN nd) j data <;> simp [e] at h ⊢ <;> omega

theorem execRdn_cases (ns : NReg) (j : Count) :
    (j.toNat ≤ 4 ∧ ∃ v, wordOf? (s.readN ns) j = some v ∧ execRdn ns j s = respond v s) ∨
    (5 ≤ j.toNat ∧ execRdn ns j s = raise .illegal s) := by
  have h := wordOf?_isSome (s.readN ns) j
  unfold execRdn
  cases e : wordOf? (s.readN ns) j <;> simp [e] at h ⊢ <;> omega

theorem execWrl_cases (sd : SReg) (i : Count) (data : Word) :
    (i.toNat ≤ 5 ∧ ∃ r, (s.readS sd).withSlot? i data = some r ∧ execWrl sd i data s = done (s.writeS sd r)) ∨
    (6 ≤ i.toNat ∧ execWrl sd i data s = raise .illegal s) := by
  have h := (s.readS sd).withSlot?_isSome i data
  unfold execWrl
  cases e : (s.readS sd).withSlot? i data <;> simp [e] at h ⊢ <;> omega

theorem execRdl_cases (ss : SReg) (i : Count) :
    (i.toNat ≤ 5 ∧ ∃ v, (s.readS ss).slot? i = some v ∧ execRdl ss i s = respond v s) ∨
    (6 ≤ i.toNat ∧ execRdl ss i s = raise .illegal s) := by
  have h := (s.readS ss).slot?_isSome i
  unfold execRdl
  cases e : (s.readS ss).slot? i <;> simp [e] at h ⊢ <;> omega

theorem execMkls_cases (sd : SReg) (wcnt cnt : Count) :
    (wcnt = cnt ∧ isLs cnt = true ∧ execMkls sd wcnt cnt s = done (s.writeS sd { s.readS sd with cnt := cnt })) ∨
    ((wcnt ≠ cnt ∨ isLs cnt = false) ∧ execMkls sd wcnt cnt s = raise .shape s) := by
  unfold execMkls
  by_cases h : wcnt = cnt <;> cases e : isLs cnt <;> simp [h]

theorem execValid_cases (ss : SReg) :
    (isLs (s.readS ss).cnt = true ∧ execValid ss s = respond (boolWord (s.readS ss).validate) s) ∨
    (isLs (s.readS ss).cnt = false ∧ execValid ss s = raise .shape s) := by
  unfold execValid
  cases e : isLs (s.readS ss).cnt <;> simp

theorem execDecomp_cases (sd : SReg) (ns : NReg) (cnt : Count) :
    (isLs cnt = true ∧ (s.readN ns).toNat < 2 ^ (51 * cnt.toNat) ∧ execDecomp sd ns cnt s =
      done (s.writeS sd (.ofLimbs (digits51 (s.readN ns).toNat cnt.toNat) cnt))) ∨
    (isLs cnt = true ∧ 2 ^ (51 * cnt.toNat) ≤ (s.readN ns).toNat ∧ execDecomp sd ns cnt s = raise .range s) ∨
    (isLs cnt = false ∧ execDecomp sd ns cnt s = raise .shape s) := by
  unfold execDecomp
  cases e : isLs cnt
  · simp
  · by_cases h : (s.readN ns).toNat < 2 ^ (51 * cnt.toNat)
    · simp [h]
    · simp [h, Nat.le_of_not_lt h]

theorem execNorm_cases (sd ss : SReg) :
    (isLs (s.readS ss).cnt = true ∧ execNorm sd ss s = done (s.writeS sd (normalized (s.readS ss)))) ∨
    (isLs (s.readS ss).cnt = false ∧ execNorm sd ss s = raise .shape s) := by
  unfold execNorm
  cases e : isLs (s.readS ss).cnt <;> simp

theorem execRecomp_cases (nd : NReg) (ss : SReg) :
    (isLs (s.readS ss).cnt = true ∧
      execRecomp nd ss s = done (s.writeN nd (BitVec.ofNat 320 (s.readS ss).value))) ∨
    (isLs (s.readS ss).cnt = false ∧ execRecomp nd ss s = raise .shape s) := by
  unfold execRecomp
  cases e : isLs (s.readS ss).cnt <;> simp

/-- Every command ends in a response: it answers a next state in which the host's stream is as it was and only the
architectural state and the response are new. -/
theorem exec_next (i : Instr) : ∃ a r, exec i s = .next { s with arch := a, rsp := some r } := by
  cases i with
  | wrn nd j d =>
    rcases execWrn_cases s nd j d with ⟨-, v, -, h⟩ | ⟨-, h⟩
    · exact ⟨_, _, h⟩
    · exact ⟨s.arch, _, h⟩
  | rdn ns j =>
    rcases execRdn_cases s ns j with ⟨-, v, -, h⟩ | ⟨-, h⟩ <;> exact ⟨s.arch, _, h⟩
  | wrl sd j d =>
    rcases execWrl_cases s sd j d with ⟨-, v, -, h⟩ | ⟨-, h⟩
    · exact ⟨_, _, h⟩
    · exact ⟨s.arch, _, h⟩
  | rdl ss j =>
    rcases execRdl_cases s ss j with ⟨-, v, -, h⟩ | ⟨-, h⟩ <;> exact ⟨s.arch, _, h⟩
  | mkls sd w c =>
    rcases execMkls_cases s sd w c with ⟨-, -, h⟩ | ⟨-, h⟩
    · exact ⟨_, _, h⟩
    · exact ⟨s.arch, _, h⟩
  | rdc ss => exact ⟨s.arch, _, rfl⟩
  | valid ss =>
    rcases execValid_cases s ss with ⟨-, h⟩ | ⟨-, h⟩ <;> exact ⟨s.arch, _, h⟩
  | decomp sd ns c =>
    rcases execDecomp_cases s sd ns c with ⟨-, -, h⟩ | ⟨-, -, h⟩ | ⟨-, h⟩
    · exact ⟨_, _, h⟩
    · exact ⟨s.arch, _, h⟩
    · exact ⟨s.arch, _, h⟩
  | norm sd ss =>
    rcases execNorm_cases s sd ss with ⟨-, h⟩ | ⟨-, h⟩
    · exact ⟨_, _, h⟩
    · exact ⟨s.arch, _, h⟩
  | recomp nd ss =>
    rcases execRecomp_cases s nd ss with ⟨-, h⟩ | ⟨-, h⟩
    · exact ⟨_, _, h⟩
    · exact ⟨s.arch, _, h⟩
  | modp sd => exact ⟨_, _, rfl⟩

/-- No command reads the response channel. -/
theorem exec_rsp (i : Instr) (x : Option Response) : exec i { s with rsp := x } = exec i s := by
  cases i <;> simp only [exec, execWrn, execRdn, execWrl, execRdl, execMkls, execRdc, execValid, execDecomp, execNorm,
    execRecomp, execModp] <;> rfl

end Sys2Proof.Machine
end

