-- ==== Sys2Proof/Laws/Normalizer.lean ====
section
/-! SUPPORT. What a carry pass and a fold do to the working limbs (spec/43_normalizer.md R98, R99): a pass leaves limbs
0 to 4 in bound and keeps the weighted sum, a fold takes limb 5 times p off it. -/

namespace Sys2Proof.Machine

theorem low51_eq_mod (x : Nat) : low51 x = x % 2 ^ 51 := Nat.and_two_pow_sub_one_eq_mod x 51

theorem overflow_eq_div (x : Nat) : overflow x = x / 2 ^ 51 := Nat.shiftRight_eq_div_pow x 51

/-- Limbs 0 to 4 are in bound, as a proposition. -/
theorem Work.inBound_iff (w : Work) :
    w.inBound = true ↔ w.w0 < 2 ^ 51 ∧ w.w1 < 2 ^ 51 ∧ w.w2 < 2 ^ 51 ∧ w.w3 < 2 ^ 51 ∧ w.w4 < 2 ^ 51 := by
  simp [Work.inBound, Config.W, and_assoc]

/-- A limb is its part within bound and its overflow. -/
theorem low51_add_overflow (x : Nat) : low51 x + overflow x * 2 ^ 51 = x := by
  rw [low51_eq_mod, overflow_eq_div]
  omega

/-- After a carry pass limbs 0 to 4 are in bound. -/
theorem carryPass_inBound (w : Work) : (carryPass w).inBound = true := by
  simp only [Work.inBound_iff, carryPass, carryAt, low51_eq_mod]
  omega

/-- Carrying at one limb keeps the weighted sum. -/
theorem carryAt_value (i : Nat) (w : Work) : (carryAt i w).value = w.value := by
  have h0 := low51_add_overflow w.w0
  have h1 := low51_add_overflow w.w1
  have h2 := low51_add_overflow w.w2
  have h3 := low51_add_overflow w.w3
  have h4 := low51_add_overflow w.w4
  match i with
  | 0 | 1 | 2 | 3 | 4 => simp only [carryAt, Work.value]; omega
  | _ + 5 => rfl

/-- A carry pass keeps the weighted sum. -/
theorem carryPass_value (w : Work) : (carryPass w).value = w.value := by
  simp only [carryPass, carryAt_value]

/-- A fold takes w[5]·p off the weighted sum (R99). -/
theorem foldTop_value (w : Work) : (foldTop w).value + w.w5 * Config.P = w.value := by
  simp only [foldTop, Work.value, Config.FOLD, Config.P]
  omega

/-- Working limbs 0 to 4 in bound are the digits of the weighted sum, and limb 5 is what lies above 2^255. -/
theorem Work.digits_of_inBound {w : Work} (h : w.inBound = true) :
    w.w0 = w.value % 2 ^ 51 ∧ w.w1 = w.value / 2 ^ 51 % 2 ^ 51 ∧ w.w2 = w.value / 2 ^ 102 % 2 ^ 51 ∧
    w.w3 = w.value / 2 ^ 153 % 2 ^ 51 ∧ w.w4 = w.value / 2 ^ 204 % 2 ^ 51 ∧ w.w5 = w.value / 2 ^ 255 := by
  rw [Work.inBound_iff] at h
  simp only [Work.value]
  omega

/-- After a carry pass limb 5 holds what lies above 2^255. -/
theorem carryPass_w5 (w : Work) : (carryPass w).w5 = w.value / 2 ^ 255 := by
  rw [(Work.digits_of_inBound (carryPass_inBound w)).2.2.2.2.2, carryPass_value]

/-- A carry pass and a fold take the weighted sum to the next V(k) of R101. -/
theorem foldTop_carryPass_value (w : Work) :
    (foldTop (carryPass w)).value = w.value % 2 ^ 255 + 19 * (w.value / 2 ^ 255) := by
  have h := foldTop_value (carryPass w)
  rw [carryPass_w5, carryPass_value] at h
  simp only [Config.P] at h
  have := Nat.div_add_mod w.value (2 ^ 255)
  omega

/-- The working limbs loaded from a LimbSet register have its value. -/
theorem Work.load_value {r : LimbSetReg} (h : isLs r.cnt = true) : (Work.load r).value = r.value := by
  rcases (isLs_iff _).mp h with h5 | h6
  · rw [LimbSetReg.value_five h5]
    simp [Work.load, Work.value, h5]
  · rw [LimbSetReg.value_six h6]
    simp [Work.load, Work.value, h6]

/-- The fuel of the inner loop is never used up: it stops after the first pass. -/
theorem carryUntilStable_eq (n : Nat) (w : Work) : carryUntilStable (n + 1) w = carryPass w := by
  simp [carryUntilStable, carryPass_inBound]

/-- One round of the loop. -/
theorem normLoop_succ (n : Nat) (w : Work) :
    normLoop (n + 1) w = if (carryPass w).w5 = 0 then carryPass w else normLoop n (foldTop (carryPass w)) := by
  simp [normLoop, passBound, carryUntilStable_eq]

/-- The register stored from working limbs in bound holds them. -/
theorem Work.store_fields {w : Work} (h : w.inBound = true) :
    w.store.l0.toNat = w.w0 ∧ w.store.l1.toNat = w.w1 ∧ w.store.l2.toNat = w.w2 ∧ w.store.l3.toNat = w.w3 ∧
    w.store.l4.toNat = w.w4 ∧ w.store.l5 = 0 ∧ w.store.cnt = 5 := by
  rw [Work.inBound_iff] at h
  simp [Work.store, LimbSetReg.ofLimbs]
  omega

end Sys2Proof.Machine
end

