-- ==== Sys2Proof/Laws/PerInstr.lean ====
section
/-! SUPPORT. Facts stated for every instruction as syntax, one lemma for each constructor. -/

namespace Sys2Proof.Laws.EncodingMatchesRow

/-- The encoder's word has the fixed bits of its own row of R62, whatever the operands. -/
def Statement (i : Instr) : Prop :=
  ∃ row ∈ opTable, row.mnemonic = i.mnemonic ∧ (encode i).cw &&& row.mask = row.pattern

theorem wrn (nd : NReg) (j : Count) (data : Word) : Statement (.wrn nd j data) :=
  ⟨⟨"WRN", 0x1000, 0xF31F, 5⟩, by decide, rfl, by cases nd <;> revert j <;> simp only [encode] <;> decide⟩

theorem rdn (ns : NReg) (j : Count) : Statement (.rdn ns j) :=
  ⟨⟨"RDN", 0x2000, 0xFC1F, 5⟩, by decide, rfl, by cases ns <;> revert j <;> decide⟩

theorem wrl (sd : SReg) (i : Count) (data : Word) : Statement (.wrl sd i data) :=
  ⟨⟨"WRL", 0x3000, 0xF31F, 6⟩, by decide, rfl, by cases sd <;> revert i <;> simp only [encode] <;> decide⟩

theorem rdl (ss : SReg) (i : Count) : Statement (.rdl ss i) :=
  ⟨⟨"RDL", 0x4000, 0xFC1F, 6⟩, by decide, rfl, by cases ss <;> revert i <;> decide⟩

theorem mkls (sd : SReg) (wcnt cnt : Count) : Statement (.mkls sd wcnt cnt) :=
  ⟨⟨"MKLS", 0x5000, 0xF303, 8⟩, by decide, rfl, by cases sd <;> revert wcnt cnt <;> decide⟩

theorem rdc (ss : SReg) : Statement (.rdc ss) :=
  ⟨⟨"RDC", 0x6000, 0xFCFF, 8⟩, by decide, rfl, by cases ss <;> decide⟩

theorem valid (ss : SReg) : Statement (.valid ss) :=
  ⟨⟨"VALID", 0x7000, 0xFCFF, 8⟩, by decide, rfl, by cases ss <;> decide⟩

theorem decomp (sd : SReg) (ns : NReg) (cnt : Count) : Statement (.decomp sd ns cnt) :=
  ⟨⟨"DECOMP", 0x8000, 0xF0E3, 8⟩, by decide, rfl, by cases sd <;> cases ns <;> revert cnt <;> decide⟩

theorem norm (sd ss : SReg) : Statement (.norm sd ss) :=
  ⟨⟨"NORM", 0x9000, 0xF0FF, 8⟩, by decide, rfl, by cases sd <;> cases ss <;> decide⟩

theorem recomp (nd : NReg) (ss : SReg) : Statement (.recomp nd ss) :=
  ⟨⟨"RECOMP", 0xA000, 0xF0FF, 8⟩, by decide, rfl, by cases nd <;> cases ss <;> decide⟩

theorem modp (sd : SReg) : Statement (.modp sd) :=
  ⟨⟨"MODP", 0xB000, 0xF3FF, 8⟩, by decide, rfl, by cases sd <;> decide⟩

end Sys2Proof.Laws.EncodingMatchesRow
end

