-- ==== Sys2Proof/Laws/Step.lean ====
section
/-! SUPPORT. What one step can do, by the host's next input, and what commands in a row do. -/

namespace Sys2Proof.Machine

variable {s : State} {rest : List HostInput} {cmd : Command}

theorem step_idle (h : s.input = []) : step s = .next s := by simp [step, h]

theorem step_reset (h : s.input = .reset :: rest) : step s = .next (takeReset { s with input := rest }) := by
  simp [step, h]

theorem step_legal {i : Instr} (h : s.input = .command cmd :: rest) (hd : decode cmd = .legal i) :
    step s = exec i { s with input := rest } := by
  simp [step, h, hd]

theorem step_illegal {why : Illegal} (h : s.input = .command cmd :: rest) (hd : decode cmd = .illegal why) :
    step s = raise .illegal { s with input := rest } := by
  simp [step, h, hd]

/-- Everything a step can do. -/
theorem step_cases (s : State) :
    (s.input = [] ∧ step s = .next s) ∨
    (∃ rest, s.input = .reset :: rest ∧ step s = .next (takeReset { s with input := rest })) ∨
    (∃ cmd rest i, s.input = .command cmd :: rest ∧ decode cmd = .legal i ∧
      step s = exec i { s with input := rest }) ∨
    (∃ cmd rest why, s.input = .command cmd :: rest ∧ decode cmd = .illegal why ∧
      step s = raise .illegal { s with input := rest }) := by
  match h : s.input with
  | [] => exact .inl ⟨rfl, step_idle h⟩
  | .reset :: rest => exact .inr (.inl ⟨rest, rfl, step_reset h⟩)
  | .command cmd :: rest =>
    match hd : decode cmd with
    | .legal i => exact .inr (.inr (.inl ⟨cmd, rest, i, rfl, hd, step_legal h hd⟩))
    | .illegal why => exact .inr (.inr (.inr ⟨cmd, rest, why, rfl, hd, step_illegal h hd⟩))

/-- A step on a command takes it off the host's stream and puts a response on the channel. -/
theorem step_command (h : s.input = .command cmd :: rest) : ∃ a r, step s = .next ⟨a, some r, rest⟩ := by
  match hd : decode cmd with
  | .legal i =>
    obtain ⟨a, r, e⟩ := exec_next { s with input := rest } i
    exact ⟨a, r, (step_legal h hd).trans e⟩
  | .illegal why => exact ⟨s.arch, ⟨.illegalCommand, 0⟩, step_illegal h hd⟩

/-- Commands in a row, the first of which answers t, go on from t. -/
theorem execAll_cons {i : Instr} {is : List Instr} {t : State} (h : exec i s = .next t) :
    execAll (i :: is) s = execAll is t := by simp only [execAll, h]

/-- Commands in a row always answer a next state. -/
theorem execAll_next (is : List Instr) (s : State) : ∃ t, execAll is s = .next t := by
  induction is generalizing s with
  | nil => exact ⟨s, rfl⟩
  | cons i is ih =>
    obtain ⟨a, r, h⟩ := exec_next s i
    exact (execAll_cons h).symm ▸ ih _

end Sys2Proof.Machine
end

