-- ==== Sys2Proof/Tests/Slice0.lean ====
section
/-! SUPPORT. The model's own tests. Expected results come from the worked examples of the rules and from
spec/95_test_vectors.md, named beside each test. The witnesses at the end show, for each statement that has hypotheses,
a concrete case that meets them together. -/

namespace Sys2Proof.Tests

open Sys2Proof Sys2Proof.Machine

/-! ## Helpers -/

/-- The state an outcome goes on with. -/
def next? : Host.Outcome State Fault Refusal → Option State
  | .next s => some s
  | .fault _ => none
  | .refused _ => none

/-- A small machine: reset, with N0, S0 and S1 as given. -/
def st (n0 : Big) (s0 s1 : LimbSetReg) : State :=
  { State.reset with arch := { Arch.reset with n0 := n0, s0 := s0, s1 := s1 } }

/-- The response after one step of `s` with one command presented. -/
def rspOf (s : State) (cw : Cw) (d : Word) : Option Response :=
  (next? (step (s.present ⟨cw, d⟩))).bind (·.rsp)

/-- A register after one such step. -/
def nOf (s : State) (cw : Cw) (d : Word) (r : NReg) : Option Big :=
  (next? (step (s.present ⟨cw, d⟩))).map (·.readN r)

def sOf (s : State) (cw : Cw) (d : Word) (r : SReg) : Option LimbSetReg :=
  (next? (step (s.present ⟨cw, d⟩))).map (·.readS r)

/-- The limbs of p, slot 5 as given. -/
def pSet (top : Word) (cnt : Count) : LimbSetReg :=
  ⟨0x7FFFFFFFFFFED, 0x7FFFFFFFFFFFF, 0x7FFFFFFFFFFFF, 0x7FFFFFFFFFFFF, 0x7FFFFFFFFFFFF, top, cnt⟩

/-- Five limbs of 2^51 − 1, slot 5 as given. -/
def maxSet (top : Word) (cnt : Count) : LimbSetReg :=
  ⟨0x7FFFFFFFFFFFF, 0x7FFFFFFFFFFFF, 0x7FFFFFFFFFFFF, 0x7FFFFFFFFFFFF, 0x7FFFFFFFFFFFF, top, cnt⟩

/-! ## WellFormed refuses an ill-formed term for each of its checks (R41, R63 (d), (e)) -/

theorem test_wf_wrn_word_5 : Instr.wellFormed (.wrn .n0 5 0) = false := by decide
theorem test_wf_rdn_word_5 : Instr.wellFormed (.rdn .n0 5) = false := by decide
theorem test_wf_wrl_slot_6 : Instr.wellFormed (.wrl .s0 6 0) = false := by decide
theorem test_wf_rdl_slot_6 : Instr.wellFormed (.rdl .s0 6) = false := by decide
theorem test_wf_accepts_the_last_elements : Instr.wellFormed (.wrn .n3 4 0) = true ∧
    Instr.wellFormed (.rdn .n3 4) = true ∧ Instr.wellFormed (.wrl .s3 5 0) = true ∧
    Instr.wellFormed (.rdl .s3 5) = true ∧ Instr.wellFormed (.mkls .s1 0 7) = true := by decide

/-! ## Decoding (the words of spec/95 section 2.1; bits from R62's pattern column) -/

theorem test_decode_wrn : decode ⟨0b0001110010000000, 7⟩ = .legal (.wrn .n3 4 7) ∧
    decode ⟨0x1000, 9⟩ = .legal (.wrn .n0 0 9) := by decide
theorem test_decode_rdn : decode ⟨0b0010001110000000, 0⟩ = .legal (.rdn .n3 4) ∧
    decode ⟨0x2000, 0⟩ = .legal (.rdn .n0 0) := by decide
theorem test_decode_wrl : decode ⟨0b0011110010100000, 7⟩ = .legal (.wrl .s3 5 7) ∧
    decode ⟨0x3000, 9⟩ = .legal (.wrl .s0 0 9) := by decide
theorem test_decode_rdl : decode ⟨0b0100001110100000, 0⟩ = .legal (.rdl .s3 5) ∧
    decode ⟨0x4000, 0⟩ = .legal (.rdl .s0 0) := by decide
theorem test_decode_mkls : decode ⟨0b0101110011011000, 0⟩ = .legal (.mkls .s3 6 6) ∧
    decode ⟨0x541C, 0⟩ = .legal (.mkls .s1 0 7) := by decide
theorem test_decode_rdc : decode ⟨0b0110001100000000, 0⟩ = .legal (.rdc .s3) ∧
    decode ⟨0x6000, 0⟩ = .legal (.rdc .s0) := by decide
theorem test_decode_valid : decode ⟨0b0111001100000000, 0⟩ = .legal (.valid .s3) ∧
    decode ⟨0x7000, 0⟩ = .legal (.valid .s0) := by decide
theorem test_decode_decomp : decode ⟨0b1000111100011000, 0⟩ = .legal (.decomp .s3 .n3 6) ∧
    decode ⟨0x891C, 0⟩ = .legal (.decomp .s2 .n1 7) := by decide
theorem test_decode_norm : decode ⟨0b1001011000000000, 0⟩ = .legal (.norm .s1 .s2) ∧
    decode ⟨0x9F00, 0⟩ = .legal (.norm .s3 .s3) := by decide
theorem test_decode_recomp : decode ⟨0b1010100100000000, 0⟩ = .legal (.recomp .n2 .s1) ∧
    decode ⟨0xAF00, 0⟩ = .legal (.recomp .n3 .s3) := by decide
theorem test_decode_modp : decode ⟨0b1011110000000000, 0⟩ = .legal (.modp .s3) ∧
    decode ⟨0xB000, 0⟩ = .legal (.modp .s0) := by decide

/-- The illegal words of spec/95 section 2.1, first half. -/
theorem test_decode_illegal_reserved_and_transfer :
    ([0x0000, 0x0FFC, 0xC000, 0xD000, 0xE000, 0xF000, 0xFFFF, 0x1001, 0x1002, 0x10A0, 0x10E0, 0x1100, 0x1004, 0x22A0,
      0x2400, 0x30C0, 0x30E0, 0x3200, 0x40C0, 0x4800, 0x4010] : List Cw).all
      (fun cw => (decode ⟨cw, 0⟩).instr? == none) = true := by decide

/-- The illegal words of spec/95 section 2.1, second half. -/
theorem test_decode_illegal_others :
    ([0x5100, 0x58B5, 0x6020, 0x6400, 0x7400, 0x7004, 0x8034, 0x8017, 0x9001, 0x9020, 0x9004, 0xA0E0, 0xB100,
      0xB01C] : List Cw).all (fun cw => (decode ⟨cw, 0⟩).instr? == none) = true := by decide

/-- R63's causes, by name. -/
theorem test_decode_reasons : decode ⟨0x0000, 0⟩ = .illegal .reservedOpcode ∧
    decode ⟨0x1001, 0⟩ = .illegal .nonzeroZ ∧ decode ⟨0x1100, 0⟩ = .illegal .unusedField ∧
    decode ⟨0x10A0, 0⟩ = .illegal .wordIndex ∧ decode ⟨0x30C0, 0⟩ = .illegal .slotIndex := by decide

/-- The table's numbering: bit 0 of the command word is bit 0 of the number. -/
theorem test_decodeTableWord : decodeTableWord 16 0xB000 = some (.modp .s0) ∧
    decodeTableWord 16 0x10A0 = none := by decide

/-! ## One step of each command -/

/-- R72's example: from N0 = 0, `WRN N0, 4, 0x1` leaves N0 = 2^256. -/
theorem test_wrn_word_4 : nOf .reset 0x1080 1 .n0 =
    some 0x10000000000000000000000000000000000000000000000000000000000000000 := by decide
/-- X6: writing word 0 leaves word 4. -/
theorem test_wrn_keeps_other_words :
    nOf (st 0xFFFFFFFFFFFFFFFF0000000000000000000000000000000000000000000000001122334455667788 .zero .zero) 0x1000 0
      .n0 = some 0xFFFFFFFFFFFFFFFF0000000000000000000000000000000000000000000000000000000000000000 := by decide
/-- R73's example, on N0: words 3 and 0 of 2^255 − 19. -/
theorem test_rdn_words : rspOf (st 0x7FFFFFFFFFFFFFFFFFFFFFFFFFFFFFFFFFFFFFFFFFFFFFFFFFFFFFFFFFFFFFED .zero .zero)
      0x2060 0 = some ⟨.ok, 0x7FFFFFFFFFFFFFFF⟩ ∧
    rspOf (st 0x7FFFFFFFFFFFFFFFFFFFFFFFFFFFFFFFFFFFFFFFFFFFFFFFFFFFFFFFFFFFFFED .zero .zero)
      0x2000 0 = some ⟨.ok, 0xFFFFFFFFFFFFFFED⟩ := by decide
/-- R63 (d): RDN with k = 5 changes nothing and answers IllegalCommand. -/
theorem test_rdn_word_5_is_illegal : rspOf .reset 0x20A0 0 = some ⟨.illegalCommand, 0⟩ := by decide
/-- X9: `WRL S2, 5` sets the slot and leaves the count at 0. -/
theorem test_wrl_slot_5 : sOf .reset 0x38A0 0xDEADBEEFCAFEF00D .s2 = some ⟨0, 0, 0, 0, 0, 0xDEADBEEFCAFEF00D, 0⟩ := by
  decide
/-- R74: a slot of a constructed register changes in place, with no check against 2^51. -/
theorem test_wrl_in_place : sOf (st 0 (pSet 9 5) .zero) 0x3000 0xFFFFFFFFFFFFFFFF .s0 =
    some { pSet 9 5 with l0 := 0xFFFFFFFFFFFFFFFF } := by decide
/-- X15: slot 5 of a 5-limb register is returned raw; X24: the write data is ignored. -/
theorem test_rdl_slot_5_raw : rspOf (st 0 (pSet 0xDEADBEEFCAFEF00D 5) .zero) 0x40A0 0xFFFFFFFFFFFFFFFF =
    some ⟨.ok, 0xDEADBEEFCAFEF00D⟩ := by decide
/-- 0x40C0 of section 2.1: RDL with k = 6. -/
theorem test_rdl_slot_6_is_illegal : rspOf .reset 0x40C0 0 = some ⟨.illegalCommand, 0⟩ := by decide
/-- R82's examples: `MKLS S2, 5, 5` sets the count and touches no slot. -/
theorem test_mkls_ok : sOf (st 0 (pSet 7 6) .zero) 0x50B4 0 .s0 = some (pSet 7 5) := by decide
/-- R82's examples: 5, 6 and 4, 4 and 0, 0 are ShapeErrors. -/
theorem test_mkls_shape : rspOf .reset 0x58B8 0 = some ⟨.shapeError, 0⟩ ∧
    rspOf .reset 0x5890 0 = some ⟨.shapeError, 0⟩ ∧ rspOf .reset 0x5800 0 = some ⟨.shapeError, 0⟩ := by decide
/-- X11: the raw count of an empty register is 0, with status OK; X14: 5 once constructed. -/
theorem test_rdc : rspOf .reset 0x6200 0 = some ⟨.ok, 0⟩ ∧
    rspOf (st 0 (pSet 0 5) .zero) 0x6000 0 = some ⟨.ok, 5⟩ := by decide
/-- V3: slot 5 is not examined when the count is 5; V1's neighbour: it is when the count is 6. -/
theorem test_valid_slot_5 : rspOf (st 0 (maxSet 0xFFFFFFFFFFFFFFFF 5) .zero) 0x7000 0 = some ⟨.ok, 1⟩ ∧
    rspOf (st 0 (maxSet 0x8000000000000 6) .zero) 0x7000 0 = some ⟨.ok, 0⟩ := by decide
/-- X12: VALID on an empty register. -/
theorem test_valid_empty : rspOf .reset 0x7200 0 = some ⟨.shapeError, 0⟩ := by decide
/-- T1: six limbs of 2^256 − 38. -/
theorem test_decomp_t1 :
    sOf (st 0xFFFFFFFFFFFFFFFFFFFFFFFFFFFFFFFFFFFFFFFFFFFFFFFFFFFFFFFFFFFFFFDA .zero .zero) 0x8018 0 .s0 =
      some { maxSet 1 6 with l0 := 0x7FFFFFFFFFFDA } := by decide
/-- R93's boundary: 2^255 is out of range with count 5, and the destination keeps its content. -/
theorem test_decomp_range :
    rspOf (st 0x8000000000000000000000000000000000000000000000000000000000000000 .zero .zero) 0x8014 0 =
      some ⟨.rangeError, 0⟩ ∧
    sOf (st 0x8000000000000000000000000000000000000000000000000000000000000000 (pSet 7 6) .zero) 0x8014 0 .s0 =
      some (pSet 7 6) := by decide
/-- M9: two folds. -/
theorem test_norm_m9 : sOf (st 0 (maxSet 1 6) .zero) 0x9400 0 .s1 = some ⟨0x25, 0, 0, 0, 0, 0, 5⟩ := by decide
/-- M13: all six slots 2^64 − 1, normalized in place. -/
theorem test_norm_m13_in_place : sOf (st 0 ⟨-1, -1, -1, -1, -1, -1, 6⟩ .zero) 0x9000 0 .s0 =
    some ⟨0x25FEC, 0x27FFF, 0x1FFF, 0x1FFF, 0x1FFF, 0, 5⟩ := by decide
/-- C9: the largest value a LimbSet register can have. -/
theorem test_recomp_c9 : nOf (st 0 ⟨-1, -1, -1, -1, -1, -1, 6⟩ .zero) 0xA400 0 .n1 =
    some 0x8000000000000FFF8000000001FFF0000000003FFE0000000007FFC000000000FFF7FFFFFFFFFFFF := by decide
/-- C8: slot 5 is not added when the count is 5; limb 0 is 2^51 − 38. -/
theorem test_recomp_c8 : nOf (st 0 { maxSet 1 5 with l0 := 0x7FFFFFFFFFFDA } .zero) 0xA400 0 .n1 =
    some 0x7FFFFFFFFFFFFFFFFFFFFFFFFFFFFFFFFFFFFFFFFFFFFFFFFFFFFFFFFFFFFFDA := by decide
/-- F2: MODP overwrites slot 5 and the count. -/
theorem test_modp_f2 : sOf (st 0 ⟨0xAAAA, 0xAAAA, 0xAAAA, 0xAAAA, 0xAAAA, 0xAAAA, 6⟩ .zero) 0xB000 0 .s0 =
    some (pSet 0 5) := by decide
/-- F4: MODP with c = 1 spells no command. -/
theorem test_modp_f4 : rspOf .reset 0xB004 0 = some ⟨.illegalCommand, 0⟩ := by decide

/-! ## The step, the port and the assembler -/

/-- R141: a reset between two commands clears the registers. -/
theorem test_reset_step :
    (next? (step { st 5 (pSet 0 5) .zero with input := [.reset] })).map (·.arch) = some Arch.reset := by decide
/-- The host's placement of a word makes the next step run it. -/
theorem test_withFetchWord :
    (next? (step (State.reset.withFetchWord 16 0xBC00))).map (·.readS .s3) = some (pSet 0 5) := by decide
/-- R66: LDN loads 2^256 − 38 (T1). -/
theorem test_ldn : (next? (execAll
      (ldn .n0 0xFFFFFFFFFFFFFFFFFFFFFFFFFFFFFFFFFFFFFFFFFFFFFFFFFFFFFFFFFFFFFFDA) .reset)).map (·.readN .n0) =
    some 0xFFFFFFFFFFFFFFFFFFFFFFFFFFFFFFFFFFFFFFFFFFFFFFFFFFFFFFFFFFFFFFDA := by decide
/-- R65: data in hexadecimal. -/
theorem test_asm : asm (.wrl .s2 5 0xDEADBEEFCAFEF00D) = "WRL S2, 5, 0xDEADBEEFCAFEF00D" := by decide
/-- R16: slot 5 takes no part in the equality of 5-limb sets, and does of 6-limb sets. -/
theorem test_sameSet : (pSet 1 5).sameSet (pSet 2 5) = true ∧ (pSet 1 6).sameSet (pSet 2 6) = false ∧
    (pSet 0 5).sameSet (pSet 0 6) = false := by decide
/-- R61: the port is ready after reset and not ready once it has accepted a command. -/
theorem test_port_accepts : (Port.reset.out ⟨false, true, ⟨0xB000, 0⟩, true⟩).cmdReady = true ∧
    ∃ q, Port.reset.edge ⟨false, true, ⟨0xB000, 0⟩, true⟩ = .next q ∧
      (q.out ⟨false, false, ⟨0, 0⟩, false⟩).cmdReady = false := ⟨rfl, _, rfl, rfl⟩

/-! ## Witnesses: a case that meets the hypotheses of each statement -/

/-- A state whose only input is one command. -/
abbrev one (s : State) (cw : Cw) : State := s.present ⟨cw, 0⟩

/-- Element indexes (ResetClearsEveryRegister, CommandsOnTheResetState, ReadReturnsTheLastWrite, WrnWritesOneWord,
RdnReadsOneWord, WrlWritesOneSlot, RdlReadsOneSlot, DecompWritesTheDigits, NormEqualsClosedForm): first and last index
of each range, and the first and last outside it. -/
theorem witness_element_indexes : (0 : Count).toNat ≤ 4 ∧ (4 : Count).toNat ≤ 4 ∧ 5 ≤ (5 : Count).toNat ∧
    5 ≤ (7 : Count).toNat ∧ (5 : Count).toNat ≤ 5 ∧ 6 ≤ (6 : Count).toNat ∧ 6 ≤ (7 : Count).toNat ∧
    (0 : Count) ≠ 5 := by decide

theorem witness_ResetStepClears : ∃ (s : State) (rest : List HostInput), s.input = .reset :: rest :=
  ⟨{ State.reset with input := [.reset] }, _, rfl⟩

theorem witness_CountInvariantKeptByStep : ∃ s t, s.Inv ∧ step s = .next t ∧ t.Inv ∧ s.readS .s0 ≠ t.readS .s0 :=
  ⟨one .reset 0xB000, _, fun r => by cases r <;> rfl, rfl, fun r => by cases r <;> rfl, by decide⟩

theorem witness_CountFieldWriters : ∃ t u v w,
    exec (.modp .s0) .reset = .next t ∧ (t.readS .s0).cnt ≠ (State.reset.readS .s0).cnt ∧
    exec (.norm .s1 .s0) (st 0 (pSet 0 6) .zero) = .next u ∧ (u.readS .s1).cnt ≠ 0 ∧
    exec (.mkls .s0 6 6) .reset = .next v ∧ (v.readS .s0).cnt ≠ (State.reset.readS .s0).cnt ∧
    exec (.decomp .s0 .n0 6) .reset = .next w ∧ (w.readS .s0).cnt ≠ (State.reset.readS .s0).cnt :=
  ⟨_, _, _, _, rfl, by decide, rfl, by decide, rfl, by decide, rfl, by decide⟩

theorem witness_LimbSetRegistersStayConstructed : ∃ (s t : State) (cmd : Command) (rest : List HostInput),
    s.input = .command cmd :: rest ∧ step s = .next t ∧ ((s.readS .s0).cnt = 5 ∨ (s.readS .s0).cnt = 6) :=
  ⟨one (st 0 (pSet 0 6) .zero) 0x9000, _, _, _, rfl, rfl, .inr rfl⟩

theorem witness_DecodeInvertsEncode : Instr.wellFormed (.wrn .n3 4 0xFFFFFFFFFFFFFFFF) = true ∧
    Instr.wellFormed (.wrl .s3 5 1) = true ∧ Instr.wellFormed (.decomp .s2 .n1 7) = true := by decide

theorem witness_EncodeInvertsDecode : decode ⟨0x1C80, 7⟩ = .legal (.wrn .n3 4 7) ∧
    decode ⟨0x9600, 7⟩ = .legal (.norm .s1 .s2) := by decide

theorem witness_DecoderAgreesWithOpcodeMap : ∃ r ∈ opTable, r.spells 0x9600 = true ∧
    decode ⟨0x9600, 0⟩ = .legal (.norm .s1 .s2) := ⟨⟨"NORM", 0x9000, 0xF0FF, 8⟩, by decide⟩

theorem witness_IllegalWordsAndTheirAnswer : ∃ (s : State) (cmd : Command) (rest : List HostInput),
    s.input = .command cmd :: rest ∧ (decode cmd).instr? = none :=
  ⟨one .reset 0xFFFF, _, _, rfl, by decide⟩

theorem witness_WriteDataIgnoredByOtherCommands : Cw.op 0x2260 ≠ 1 ∧ Cw.op 0x2260 ≠ 3 := by decide

theorem witness_StepRunsTheDecodedCommand : ∃ (s : State) (cmd : Command) (rest : List HostInput) (i : Instr),
    s.input = .command cmd :: rest ∧ decode cmd = .legal i :=
  ⟨one .reset 0x8014, _, _, .decomp .s0 .n0 5, rfl, by decide⟩

theorem witness_FetchedWordRuns : decodeTableWord 16 0x8014 = some (.decomp .s0 .n0 5) := by decide

theorem witness_IdleStepHoldsState : (st 5 (pSet 0 5) .zero).input = [] := rfl

/-- EveryCommandIsAnswered: each status, by the command that gives it. -/
theorem witness_EveryCommandIsAnswered : rspOf .reset 0x6200 0 = some ⟨.ok, 0⟩ ∧
    rspOf .reset 0x9000 0 = some ⟨.shapeError, 0⟩ ∧
    rspOf (st (-1) .zero .zero) 0x8018 0 = some ⟨.rangeError, 0⟩ ∧
    rspOf .reset 0xFFFF 0 = some ⟨.illegalCommand, 0⟩ := by decide

theorem witness_RangeErrorExactlyWhenTooLarge :
    rangeCondition (st 0x8000000000000000000000000000000000000000000000000000000000000000 .zero .zero)
      (.decomp .s0 .n0 5) ∧
    ∃ t, exec (.decomp .s0 .n0 5)
      (st 0x8000000000000000000000000000000000000000000000000000000000000000 .zero .zero) = .next t ∧
      t.rsp = some ⟨.rangeError, 0⟩ :=
  ⟨⟨.inl rfl, by decide⟩, _, rfl, rfl⟩

/-- The two values where RangeErrorExactlyWhenTooLarge's clauses for 2^255 and 2^306 begin and end. -/
theorem witness_RangeErrorBounds : ∃ lo hi top : Big, 2 ^ 255 ≤ lo.toNat ∧ lo.toNat < 2 ^ 306 ∧ 2 ^ 255 ≤ hi.toNat ∧
    hi.toNat < 2 ^ 306 ∧ 2 ^ 306 ≤ top.toNat ∧ lo.toNat = 2 ^ 255 ∧ hi.toNat + 1 = top.toNat :=
  ⟨0x8000000000000000000000000000000000000000000000000000000000000000,
    0x3FFFFFFFFFFFFFFFFFFFFFFFFFFFFFFFFFFFFFFFFFFFFFFFFFFFFFFFFFFFFFFFFFFFFFFFFFFFF,
    0x40000000000000000000000000000000000000000000000000000000000000000000000000000, by decide⟩

/-- ErrorWritesNothing, ErrorLeavesNoTrace, ResendingAFailedCommandFailsAgain: a command that fails, with another input
behind it. -/
theorem witness_errors : ∃ (s t : State) (cmd : Command) (x : HostInput) (rest : List HostInput) (r : Response),
    s.input = .command cmd :: x :: rest ∧ step s = .next t ∧ t.rsp = some r ∧ r.status ≠ .ok :=
  ⟨one (one .reset 0xB000) 0x9000, _, _, _, _, _, rfl, rfl, rfl, by decide⟩

/-- ResultsDependOnlyOnPlacesRead: two states that agree on what `RECOMP N1, S0` reads,
with count 5, and differ in slot 5, which it does not read, and elsewhere. -/
theorem witness_ResultsDependOnlyOnPlacesRead : ∃ s s' t t',
    (∀ p, placesRead (.recomp .n1 .s0) s.arch p = true → s.arch.at? p = s'.arch.at? p) ∧
    exec (.recomp .n1 .s0) s = .next t ∧ exec (.recomp .n1 .s0) s' = .next t' ∧ t.rsp = some ⟨.ok, 0⟩ ∧ s ≠ s' := by
  refine ⟨st 0 (pSet 1 5) .zero, st 7 (pSet 2 5) .zero, _, _, ?_, rfl, rfl, rfl, by decide⟩
  intro p hp
  cases p with
  | word r j => cases hp
  | slot r i =>
    cases r <;> try cases hp
    revert i
    decide
  | count r => cases r <;> rfl

/-- ReadsHaveNoSideEffects: `RDN N0, 0` with `MODP S0`, which writes nothing it reads. -/
theorem witness_ReadsHaveNoSideEffects : ∃ t u v,
    (∀ p, placesRead (.rdn .n0 0) Arch.reset p = true → placesWritten (.modp .s0) p = false) ∧
    exec (.rdn .n0 0) .reset = .next t ∧ exec (.modp .s0) .reset = .next u ∧ exec (.rdn .n0 0) u = .next v := by
  refine ⟨_, _, _, ?_, rfl, rfl, rfl⟩
  intro p hp
  cases p with
  | word r j => rfl
  | slot r i => cases hp
  | count r => cases hp

/-- FrameOutsideWrittenPlaces: `WRN N0, 4` and word 3 of N0. -/
theorem witness_FrameOutsideWrittenPlaces : ∃ t, exec (.wrn .n0 4 7) .reset = .next t ∧
    placesWritten (.wrn .n0 4 7) (.word .n0 3) = false := ⟨_, rfl, rfl⟩

theorem witness_NoDataMeansReadDataZero : ∃ t r, exec (.modp .s0) .reset = .next t ∧ t.rsp = some r ∧
    ∃ n, Instr.modp .s0 = .modp n := ⟨_, _, rfl, rfl, _, rfl⟩

theorem witness_RdcReadsTheCount : ∃ s t r, s.Inv ∧ exec (.rdc .s0) s = .next t ∧ t.rsp = some r ∧ r.rdata = 6 :=
  ⟨st 0 (pSet 0 6) .zero, _, _, fun r => by cases r <;> rfl, rfl, rfl, rfl⟩

/-- MklsChecksShapeOnly: the accepted pairs, an unequal pair and equal pairs on either side of 5 and 6. -/
theorem witness_MklsChecksShapeOnly : ((5 : Count) = 5 ∨ (5 : Count) = 6) ∧ ((5 : Count) ≠ 6) ∧
    ((4 : Count) ≠ 5 ∧ (4 : Count) ≠ 6) ∧ ((7 : Count) ≠ 5 ∧ (7 : Count) ≠ 6) := by decide

/-- ValidChecksEveryLimb, RecompWritesTheSum, NormRunsTheLoop, NormEqualsClosedForm, NormResultIsValidAndCongruent: a
register with each legal count, and an empty one. -/
theorem witness_counts : ((st 0 (pSet 0 5) (pSet 0 6)).readS .s0).cnt = 5 ∧
    ((st 0 (pSet 0 5) (pSet 0 6)).readS .s1).cnt = 6 ∧ ((st 0 (pSet 0 5) (pSet 0 6)).readS .s2).cnt ≠ 5 ∧
    ((st 0 (pSet 0 5) (pSet 0 6)).readS .s2).cnt ≠ 6 := by decide

/-- DecompWritesTheDigits, DecompThenRecompIsIdentity: the last integer in range and the first out of it, for each
count. -/
theorem witness_DecompWritesTheDigits : ∃ a b c d : Big,
    a.toNat < 2 ^ (51 * (5 : Count).toNat) ∧ 2 ^ (51 * (5 : Count).toNat) ≤ b.toNat ∧ a.toNat + 1 = b.toNat ∧
    c.toNat < 2 ^ (51 * (6 : Count).toNat) ∧ 2 ^ (51 * (6 : Count).toNat) ≤ d.toNat ∧ c.toNat + 1 = d.toNat :=
  ⟨0x7FFFFFFFFFFFFFFFFFFFFFFFFFFFFFFFFFFFFFFFFFFFFFFFFFFFFFFFFFFFFFFF,
    0x8000000000000000000000000000000000000000000000000000000000000000,
    0x3FFFFFFFFFFFFFFFFFFFFFFFFFFFFFFFFFFFFFFFFFFFFFFFFFFFFFFFFFFFFFFFFFFFFFFFFFFFF,
    0x40000000000000000000000000000000000000000000000000000000000000000000000000000, by decide⟩

/-- OneCarryPassIsEnough: the inner loop settles after a pass. -/
theorem witness_OneCarryPassIsEnough : ∃ w p w', Settles w p w' :=
  ⟨.load (maxSet 1 6), _, _, .stable (by decide)⟩

/-- NormNeedsAtMostThreePasses: a register with a legal count whose loop ends (M7). -/
theorem witness_NormNeedsAtMostThreePasses : ∃ r p f w, isLs r.cnt = true ∧ NormRuns (.load r) p f w ∧ f = 1 :=
  ⟨⟨0, 0, 0, 0, 0, 1, 6⟩, _, _, _, by decide,
    .fold (.stable (by decide)) (by decide) (.leave (.stable (by decide)) (by decide)), rfl⟩

/-- WorkingLimbsStayBelow70Bits: M9's source after a pass and a fold, and inside the next pass, where limb 1 has
received limb 0's overflow and is 2^51. -/
theorem witness_WorkingLimbsStayBelow70Bits : ∃ v w, NormHolds (.load (maxSet 1 6)) 0 v ∧ v.w0 = 0x8000000000012 ∧
    NormHolds (.load (maxSet 1 6)) 1 w ∧ w.w1 = 0x8000000000000 := by
  have h : NormHolds (.load (maxSet 1 6)) 0 (foldTop (carryPass (.load (maxSet 1 6)))) :=
    .fold (.carry (.carry (.carry (.carry (.carry .start (by decide)) (by decide)) (by decide)) (by decide))
      (by decide)) (by decide) (by decide)
  exact ⟨_, _, h, by decide, .carry h (by decide), by decide⟩

/-- ReadReturnsTheLastWrite: a write of each kind with `MODP S3` in between, which writes none of the places read. -/
theorem witness_ReadReturnsTheLastWrite :
    (noneWrites [.modp .s3] (.word .n1 4) ∧ noneWrites [.modp .s3] (.slot .s1 5) ∧
      noneWrites [.modp .s3] (.count .s1)) ∧
    (∃ t, execAll [.wrn .n1 4 7, .modp .s3] .reset = .next t) ∧
    (∃ t, execAll [.wrl .s1 5 7, .modp .s3] .reset = .next t) ∧
    (∃ t, execAll [.mkls .s1 5 5, .modp .s3] .reset = .next t) ∧
    (∃ t, execAll [.recomp .n1 .s0, .modp .s3] (st 0 (pSet 0 5) .zero) = .next t) ∧
    (∃ t, execAll [.decomp .s1 .n0 6, .modp .s3] (st 0x25 .zero .zero) = .next t) ∧
    (∃ u t, exec (.norm .s1 .s0) (st 0 (maxSet 1 6) .zero) = .next u ∧ execAll [.modp .s3] u = .next t) ∧
    ∃ t, execAll [.modp .s1, .modp .s3] .reset = .next t :=
  ⟨by unfold noneWrites; decide, ⟨_, rfl⟩, ⟨_, rfl⟩, ⟨_, rfl⟩, ⟨_, rfl⟩, ⟨_, rfl⟩, ⟨_, _, rfl, rfl⟩, ⟨_, rfl⟩⟩

/-- NormResultIsNotTheLeastResidue: the first and the last such value, and a NORM that succeeds on R100's example. -/
theorem witness_NormResultIsNotTheLeastResidue : Config.P ≤ Config.P ∧ Config.P < 2 ^ 255 ∧
    Config.P ≤ 2 ^ 255 - 1 ∧ 2 ^ 255 - 1 < 2 ^ 255 ∧
    ∃ t, exec (.norm .s1 .s0) (st 0 { maxSet 1 6 with l0 := 0x7FFFFFFFFFFDA } .zero) = .next t ∧
      t.rsp = some ⟨.ok, 0⟩ :=
  ⟨by decide, by decide, by decide, by decide, _, rfl, rfl⟩

theorem witness_NormIsIdempotent : ∃ t, exec (.norm .s1 .s0) (st 0 (maxSet 1 6) .zero) = .next t ∧
    t.rsp = some ⟨.ok, 0⟩ := ⟨_, rfl, rfl⟩

/-- NormKeepsValidSmallSets: p itself with count 6 and limb 5 zero, and a DECOMP with count 5 that succeeds. -/
theorem witness_NormKeepsValidSmallSets : (pSet 0 6).validate = true ∧ (pSet 0 6).value < 2 ^ 255 ∧
    ∃ t, exec (.decomp .s0 .n0 5) (st 5 .zero .zero) = .next t ∧ t.rsp = some ⟨.ok, 0⟩ :=
  ⟨by decide, by decide, _, rfl, rfl⟩

theorem witness_NormCongruenceThroughRecomp : SReg.s1 ≠ .s0 ∧ ((st 0 (maxSet 1 6) .zero).readS .s0).cnt = 6 := by decide

theorem witness_ModulusIsSelfConsistent :
    ((st 0x7FFFFFFFFFFFFFFFFFFFFFFFFFFFFFFFFFFFFFFFFFFFFFFFFFFFFFFFFFFFFFED .zero .zero).readN .n0).toNat =
      2 ^ 255 - 19 := by decide

/-- PortReset, PortOneCommandInFlight, PortAnswersAfterItsLatency: a ready port with a command offered and with none, a
port with a command in flight, with its response offered and delivered, and a reset. -/
theorem witness_port : (Port.reset.out ⟨false, true, ⟨0xB000, 0⟩, true⟩).cmdReady = true ∧
    (Port.reset.out ⟨false, false, ⟨0, 0⟩, true⟩).cmdReady = true ∧
    ((⟨{ State.reset with rsp := some ⟨.ok, 0⟩ }, 2, 1⟩ : Port).out ⟨false, true, ⟨0, 0⟩, true⟩).cmdReady = false ∧
    ((⟨{ State.reset with rsp := some ⟨.ok, 0⟩ }, 0, 1⟩ : Port).out ⟨false, true, ⟨0, 0⟩, true⟩).rsp.isSome = true ∧
    ((⟨{ State.reset with rsp := some ⟨.ok, 0⟩ }, 0, 1⟩ : Port).out ⟨true, true, ⟨0, 0⟩, true⟩).cmdReady = false := by
  decide

end Sys2Proof.Tests
end

section
/-! PROOFS. The register files: what reset leaves in them (R36), and that no two registers share storage (R26). -/

namespace Sys2Proof.Machine

/-- The six slots of a register after reset. -/
theorem LimbSetReg.zero_slots : LimbSetReg.zero.slots = List.replicate 6 0 := rfl

/-- A slot index in range names a zero slot after reset. -/
theorem LimbSetReg.zero_slot? {i : Count} (hi : i.toNat ≤ 5) : LimbSetReg.zero.slot? i = some 0 := by
  rw [LimbSetReg.slot?, LimbSetReg.zero_slots, List.getElem?_replicate_of_lt (by omega)]

@[simp] theorem State.reset_readN (r : NReg) : State.reset.readN r = 0 := Arch.reset_readN r

@[simp] theorem State.reset_readS (r : SReg) : State.reset.readS r = .zero := Arch.reset_readS r

/-- Settles O1: each register of the reset state is the zero register of its file. -/
theorem resetClearsEveryRegister : Obligations.ResetClearsEveryRegister := by
  refine ⟨State.reset_readN, fun r i hi => ?slot, fun r => ?count, rfl⟩
  case slot => rw [State.reset_readS, LimbSetReg.zero_slot? hi]
  case count => rw [State.reset_readS, LimbSetReg.zero]

/-- Settles O24: the state's reads and writes are those of its register files, where a write reaches the register it
names and no other. -/
theorem registersAreSeparate : Obligations.RegistersAreSeparate :=
  ⟨fun s => Arch.readN_writeN s.arch, fun s => Arch.readS_writeS s.arch,
    fun s => Arch.readS_writeN s.arch, fun s => Arch.readN_writeS s.arch⟩

end Sys2Proof.Machine
end

section
/-! PROOFS. What a command leaves in the places it does not write (R28's write columns). -/

namespace Sys2Proof.Machine

/-- Writing an integer register shows in no place but those words of it whose content is new. -/
theorem Arch.at?_writeN {a : Arch} {r : NReg} {v : Big} {p : Place}
    (hw : ∀ j, p = .word r j → wordOf? v j = wordOf? (a.readN r) j) : (a.writeN r v).at? p = a.at? p := by
  cases p with
  | word q j =>
    by_cases hq : q = r
    · subst hq
      simp [Arch.at?, hw j rfl]
    · simp [Arch.at?, hq]
  | slot q i => simp [Arch.at?]
  | count q => simp [Arch.at?]

/-- Writing a LimbSet register shows in no place but those of its slots and its count whose content is new. -/
theorem Arch.at?_writeS {a : Arch} {r : SReg} {v : LimbSetReg} {p : Place}
    (hs : ∀ i, p = .slot r i → v.slot? i = (a.readS r).slot? i) (hc : p = .count r → v.cnt = (a.readS r).cnt) :
    (a.writeS r v).at? p = a.at? p := by
  cases p with
  | word q j => simp [Arch.at?]
  | slot q i =>
    by_cases hq : q = r
    · subst hq
      simp [Arch.at?, hs i rfl]
    · simp [Arch.at?, hq]
  | count q =>
    by_cases hq : q = r
    · subst hq
      simp [Arch.at?, hc rfl]
    · simp [Arch.at?, hq]

/-- Whatever is written to a LimbSet register all of which the command may write, it shows in no place that the command
may not write. -/
theorem Arch.at?_writeS_of_not_written {i : Instr} {a : Arch} {r : SReg} {v : LimbSetReg} {p : Place}
    (hs : ∀ j, placesWritten i (.slot r j) = true) (hc : placesWritten i (.count r) = true)
    (hp : placesWritten i p = false) : (a.writeS r v).at? p = a.at? p := by
  refine Arch.at?_writeS (fun j hj => ?_) fun hj => ?_
  · simp [hj, hs j] at hp
  · simp [hj, hc] at hp

/-- A place the command does not write (R28) holds after it what it held before. -/
theorem exec_at?_of_not_written {i : Instr} {s t : State} {p : Place} (h : exec i s = .next t)
    (hp : placesWritten i p = false) : t.arch.at? p = s.arch.at? p := by
  cases i with
  | wrn nd j d =>
    obtain ⟨-, v, hv, e⟩ | ⟨-, e⟩ := execWrn_cases s nd j d <;> cases e.symm.trans h
    · refine Arch.at?_writeN fun m hm => wordOf?_withWord?_ne hv ?_
      rintro rfl
      simp [placesWritten, hm] at hp
    · rfl
  | wrl sd j d =>
    obtain ⟨-, v, hv, e⟩ | ⟨-, e⟩ := execWrl_cases s sd j d <;> cases e.symm.trans h
    · refine Arch.at?_writeS (fun m hm => ?_) fun _ => LimbSetReg.withSlot?_cnt hv
      have hne : m ≠ j := by
        rintro rfl
        simp [placesWritten, hm] at hp
      rw [LimbSetReg.slot?_withSlot? hv, if_neg hne, State.readS_arch]
    · rfl
  | mkls sd w c =>
    obtain ⟨-, -, e⟩ | ⟨-, e⟩ := execMkls_cases s sd w c <;> cases e.symm.trans h
    · exact Arch.at?_writeS (fun _ _ => rfl) fun hm => by simp [placesWritten, hm] at hp
    · rfl
  | decomp sd ns c =>
    obtain ⟨-, -, e⟩ | ⟨-, -, e⟩ | ⟨-, e⟩ := execDecomp_cases s sd ns c <;> cases e.symm.trans h
    · exact Arch.at?_writeS_of_not_written (i := .decomp sd ns c) (fun _ => beq_self_eq_true sd)
        (beq_self_eq_true sd) hp
    · rfl
    · rfl
  | norm sd ss =>
    obtain ⟨-, e⟩ | ⟨-, e⟩ := execNorm_cases s sd ss <;> cases e.symm.trans h
    · exact Arch.at?_writeS_of_not_written (i := .norm sd ss) (fun _ => beq_self_eq_true sd) (beq_self_eq_true sd) hp
    · rfl
  | recomp nd ss =>
    obtain ⟨-, e⟩ | ⟨-, e⟩ := execRecomp_cases s nd ss <;> cases e.symm.trans h
    · exact Arch.at?_writeN fun m hm => by simp [placesWritten, hm] at hp
    · rfl
  | modp sd =>
    cases h
    exact Arch.at?_writeS_of_not_written (i := .modp sd) (fun _ => beq_self_eq_true sd) (beq_self_eq_true sd) hp
  | rdn ns j => obtain ⟨-, v, -, e⟩ | ⟨-, e⟩ := execRdn_cases s ns j <;> cases e.symm.trans h <;> rfl
  | rdl ss j => obtain ⟨-, v, -, e⟩ | ⟨-, e⟩ := execRdl_cases s ss j <;> cases e.symm.trans h <;> rfl
  | rdc ss => cases h; rfl
  | valid ss => obtain ⟨-, e⟩ | ⟨-, e⟩ := execValid_cases s ss <;> cases e.symm.trans h <;> rfl

end Sys2Proof.Machine
end

section
/-! PROOFS. The four read commands (R45): they write nothing, and their response is a function of the places they
read. -/

namespace Sys2Proof.Machine

/-- RDN, RDL, RDC or VALID. -/
def Instr.IsRead (i : Instr) : Prop :=
  (∃ ns j, i = .rdn ns j) ∨ (∃ ss j, i = .rdl ss j) ∨ (∃ ss, i = .rdc ss) ∨ ∃ ss, i = .valid ss

/-- On both states the command answers the one response and writes nothing else. -/
def AnswersAlike (i : Instr) (s u : State) : Prop :=
  ∃ r, exec i s = .next { s with rsp := some r } ∧ exec i u = .next { u with rsp := some r }

variable {s u : State}

/-! ## What stands in a place is what the element is -/

theorem wordOf?_eq_of_at? {a b : Arch} {r : NReg} {j : Count} (h : b.at? (.word r j) = a.at? (.word r j)) :
    wordOf? (b.readN r) j = wordOf? (a.readN r) j :=
  Option.map_injective BitVec.toNat_injective h

theorem slot?_eq_of_at? {a b : Arch} {r : SReg} {i : Count} (h : b.at? (.slot r i) = a.at? (.slot r i)) :
    (b.readS r).slot? i = (a.readS r).slot? i :=
  Option.map_injective BitVec.toNat_injective h

theorem cnt_eq_of_at? {a b : Arch} {r : SReg} (h : b.at? (.count r) = a.at? (.count r)) :
    (b.readS r).cnt = (a.readS r).cnt :=
  BitVec.eq_of_toNat_eq (Option.some.inj h)

/-- Registers with one count and the same slots below it hold the same limbs. -/
theorem LimbSetReg.limbs_eq_of_slots {r q : LimbSetReg} (hc : q.cnt = r.cnt)
    (h : ∀ i : Count, i.toNat < r.cnt.toNat → q.slot? i = r.slot? i) : q.limbs = r.limbs := by
  apply List.ext_getElem?
  intro n
  simp only [LimbSetReg.limbs, List.getElem?_take, hc]
  split
  · next hn =>
    have e : (BitVec.ofNat 3 n).toNat = n := Nat.mod_eq_of_lt (hn.trans r.cnt.isLt)
    have hs := h (BitVec.ofNat 3 n) (by rwa [e])
    rwa [LimbSetReg.slot?, LimbSetReg.slot?, e] at hs
  · rfl

/-! ## The response of each read -/

theorem rdn_answersAlike {ns : NReg} {j : Count} (h : wordOf? (u.readN ns) j = wordOf? (s.readN ns) j) :
    AnswersAlike (.rdn ns j) s u := by
  simp only [AnswersAlike, exec, execRdn, h]
  cases wordOf? (s.readN ns) j with
  | none => exact ⟨_, rfl, rfl⟩
  | some v => exact ⟨_, rfl, rfl⟩

theorem rdl_answersAlike {ss : SReg} {i : Count} (h : (u.readS ss).slot? i = (s.readS ss).slot? i) :
    AnswersAlike (.rdl ss i) s u := by
  simp only [AnswersAlike, exec, execRdl, h]
  cases (s.readS ss).slot? i with
  | none => exact ⟨_, rfl, rfl⟩
  | some v => exact ⟨_, rfl, rfl⟩

theorem rdc_answersAlike {ss : SReg} (h : (u.readS ss).cnt = (s.readS ss).cnt) : AnswersAlike (.rdc ss) s u := by
  simp only [AnswersAlike, exec, execRdc, h]
  exact ⟨_, rfl, rfl⟩

theorem valid_answersAlike {ss : SReg} (hc : (u.readS ss).cnt = (s.readS ss).cnt)
    (hl : (u.readS ss).limbs = (s.readS ss).limbs) : AnswersAlike (.valid ss) s u := by
  simp only [AnswersAlike, exec, execValid, LimbSetReg.validate, hc, hl]
  cases isLs (s.readS ss).cnt with
  | false => exact ⟨_, rfl, rfl⟩
  | true => exact ⟨_, rfl, rfl⟩

/-- A read command answers alike on states that agree on the places it reads. -/
theorem read_answersAlike {i : Instr} (hi : Instr.IsRead i)
    (h : ∀ p, placesRead i s.arch p = true → u.arch.at? p = s.arch.at? p) : AnswersAlike i s u := by
  obtain ⟨ns, j, rfl⟩ | ⟨ss, j, rfl⟩ | ⟨ss, rfl⟩ | ⟨ss, rfl⟩ := hi
  · exact rdn_answersAlike (wordOf?_eq_of_at? (h (.word ns j) (beq_self_eq_true _)))
  · exact rdl_answersAlike (slot?_eq_of_at? (h (.slot ss j) (beq_self_eq_true _)))
  · exact rdc_answersAlike (cnt_eq_of_at? (h (.count ss) (beq_self_eq_true _)))
  · have hc := cnt_eq_of_at? (h (.count ss) (beq_self_eq_true _))
    refine valid_answersAlike hc (LimbSetReg.limbs_eq_of_slots hc fun i hlt => slot?_eq_of_at? (h (.slot ss i) ?_))
    simpa [placesRead, State.readS_arch] using hlt

/-- Settles O27: a read answers alike on a state and on any other that agrees on what it reads. The state itself and the
state after a command that writes none of these places are two such, and no command looks at the last response. -/
theorem readsHaveNoSideEffects : Obligations.ReadsHaveNoSideEffects := by
  intro i s hi
  refine ⟨?_, fun other t u v hother ht hu hv => ?_⟩
  · obtain ⟨r, hr, -⟩ := read_answersAlike (u := s) hi fun _ _ => rfl
    exact ⟨_, hr, rfl, rfl, (exec_rsp s i (some r)).trans hr⟩
  · obtain ⟨r, hs, hu'⟩ := read_answersAlike hi fun p hp => exec_at?_of_not_written hu (hother p hp)
    cases hs.symm.trans ht
    cases hu'.symm.trans hv
    rfl

end Sys2Proof.Machine
end

section
/-! PROOFS. The port at its pins (R61): what it shows, and what an edge without reset does to it, case by case. -/

namespace Sys2Proof.Machine

variable {p : Port} {pins : PinsIn}

/-! ## The outputs -/

theorem Port.out_cmdReady (p : Port) (h : pins.rst = false) : (p.out pins).cmdReady = p.unit.rsp.isNone := by
  simp [Port.out, h]

theorem Port.out_rsp (p : Port) (h : pins.rst = false) :
    (p.out pins).rsp = if p.left = 0 then p.unit.rsp else none := by
  simp [Port.out, h]

/-- Without reset the port is ready exactly while no command is in flight. -/
theorem Port.out_cmdReady_iff (h : pins.rst = false) : (p.out pins).cmdReady = true ↔ p.unit.rsp = none := by
  rw [Port.out_cmdReady p h, Option.isNone_iff_eq_none]

/-- While a command is in flight the port is not ready, in reset or out of it. -/
theorem Port.out_cmdReady_inFlight {r : Response} (hr : p.unit.rsp = some r) (pins : PinsIn) :
    (p.out pins).cmdReady = false := by
  cases h : pins.rst with
  | false => rw [Port.out_cmdReady p h, hr, Option.isNone_some]
  | true => simp [Port.out, h]

/-! ## The edges -/

/-- Accepting a command is a step on it, after which it is in flight for its latency. -/
theorem Port.accept_next (p : Port) (cmd : Command) : ∃ a r,
    step (p.unit.present cmd) = .next ⟨a, some r, p.unit.input⟩ ∧ p.accept cmd =
      .next ⟨⟨a, some r, p.unit.input⟩, Config.latencyExtra p.accepted cmd p.unit.arch, p.accepted + 1⟩ := by
  obtain ⟨a, r, h⟩ := step_command (State.present_input p.unit cmd)
  exact ⟨a, r, h, by simp only [Port.accept, h]⟩

theorem Port.edge_accept (h : pins.rst = false) (hr : p.unit.rsp = none) (hv : pins.cmdValid = true) :
    p.edge pins = p.accept pins.cmd := by
  simp [Port.edge, h, hr, hv]

theorem Port.edge_idle (h : pins.rst = false) (hr : p.unit.rsp = none) (hv : pins.cmdValid = false) :
    p.edge pins = .next p := by
  simp [Port.edge, h, hr, hv]

theorem Port.edge_busy {r : Response} {n : Nat} (h : pins.rst = false) (hr : p.unit.rsp = some r)
    (hl : p.left = n + 1) : p.edge pins = .next { p with left := n } := by
  simp [Port.edge, h, hr, hl]

theorem Port.edge_deliver {r : Response} (h : pins.rst = false) (hr : p.unit.rsp = some r) (hl : p.left = 0)
    (hready : pins.rspReady = true) : p.edge pins = .next { p with unit := { p.unit with rsp := none } } := by
  simp [Port.edge, h, hr, hl, hready]

theorem Port.edge_hold {r : Response} (h : pins.rst = false) (hr : p.unit.rsp = some r) (hl : p.left = 0)
    (hready : pins.rspReady = false) : p.edge pins = .next p := by
  simp [Port.edge, h, hr, hl, hready]

/-- Settles O55: a ready port accepts or idles; a port with a command in flight counts its latency down, and then
delivers the response or holds it, as the host is ready for it or not. -/
theorem portOneCommandInFlight : Obligations.PortOneCommandInFlight := by
  refine ⟨fun p pins h hready hv => ?accept, fun p pins h hready hv => ?idle, fun p pins h hready => ?inFlight⟩
  case accept =>
    obtain ⟨a, r, hstep, haccept⟩ := p.accept_next pins.cmd
    exact ⟨_, _, hstep, (Port.edge_accept h ((Port.out_cmdReady_iff h).mp hready) hv).trans haccept, rfl,
      Port.out_cmdReady_inFlight rfl⟩
  case idle => exact Port.edge_idle h ((Port.out_cmdReady_iff h).mp hready) hv
  case inFlight =>
    rw [Port.out_cmdReady p h, Option.isNone_eq_false_iff, Option.isSome_iff_exists] at hready
    obtain ⟨r, hr⟩ := hready
    rw [Port.out_rsp p h]
    match hl : p.left, hrr : pins.rspReady with
    | n + 1, _ => exact ⟨_, Port.edge_busy h hr hl, rfl, by simp⟩
    | 0, true => exact ⟨_, Port.edge_deliver h hr hl hrr, rfl, by simp [hr]⟩
    | 0, false => exact ⟨_, Port.edge_hold h hr hl hrr, rfl, by simp⟩

end Sys2Proof.Machine
end

section
/-! PROOFS. The step (R46, R49, R55). -/

namespace Sys2Proof.Machine

/-- Settles O14: the case of the step whose input is a command with a legal word. -/
theorem stepRunsTheDecodedCommand : Obligations.StepRunsTheDecodedCommand :=
  fun _ _ _ _ hinput hdecode => step_legal hinput hdecode

end Sys2Proof.Machine
end

section
/-! PROOFS. The opcode map (R62) against the decoder (R64), both as conditions on the six fields of a command word, and
the words that neither accepts (R63). -/

namespace Sys2Proof

/-- A row of R62 from its opcode and, for each of `rd`, `rs`, `k` and `c`, the bits that must be zero; `z` must be. -/
def OpRow.ofFields (m : String) (o : BitVec 4) (rdMask rsMask : BitVec 2) (kMask cMask : BitVec 3) (n : Nat) : OpRow :=
  ⟨m, mkCw o 0 0 0 0 0, mkCw 15 rdMask rsMask kMask cMask 3, n⟩

@[simp] theorem OpRow.ofFields_mnemonic (m : String) (o : BitVec 4) (rdMask rsMask : BitVec 2)
    (kMask cMask : BitVec 3) (n : Nat) : (OpRow.ofFields m o rdMask rsMask kMask cMask n).mnemonic = m := rfl

/-- R62's rows, field by field. -/
theorem opTable_eq_ofFields : opTable =
    [.ofFields "WRN" 1 0 3 0 7 5, .ofFields "RDN" 2 3 0 0 7 5, .ofFields "WRL" 3 0 3 0 7 6,
      .ofFields "RDL" 4 3 0 0 7 6, .ofFields "MKLS" 5 0 3 0 0 8, .ofFields "RDC" 6 3 0 7 7 8,
      .ofFields "VALID" 7 3 0 7 7 8, .ofFields "DECOMP" 8 0 0 7 0 8, .ofFields "NORM" 9 0 0 7 7 8,
      .ofFields "RECOMP" 10 0 0 7 7 8, .ofFields "MODP" 11 0 3 7 7 8] := by decide

section Fields

variable (op : BitVec 4) (rd rs : BitVec 2) (k c : BitVec 3) (z : BitVec 2) (d : Word) (m : String)

/-- What both the table and the decoder ask of the fields of a word with mnemonic m. -/
def RowHolds : Prop :=
  z = 0 ∧
    ((op = 1 ∧ rs = 0 ∧ c = 0 ∧ k.toNat ≤ 4 ∧ "WRN" = m) ∨ (op = 2 ∧ rd = 0 ∧ c = 0 ∧ k.toNat ≤ 4 ∧ "RDN" = m) ∨
    (op = 3 ∧ rs = 0 ∧ c = 0 ∧ k.toNat ≤ 5 ∧ "WRL" = m) ∨ (op = 4 ∧ rd = 0 ∧ c = 0 ∧ k.toNat ≤ 5 ∧ "RDL" = m) ∨
    (op = 5 ∧ rs = 0 ∧ "MKLS" = m) ∨ (op = 6 ∧ rd = 0 ∧ k = 0 ∧ c = 0 ∧ "RDC" = m) ∨
    (op = 7 ∧ rd = 0 ∧ k = 0 ∧ c = 0 ∧ "VALID" = m) ∨ (op = 8 ∧ k = 0 ∧ "DECOMP" = m) ∨
    (op = 9 ∧ k = 0 ∧ c = 0 ∧ "NORM" = m) ∨ (op = 10 ∧ k = 0 ∧ c = 0 ∧ "RECOMP" = m) ∨
    (op = 11 ∧ rs = 0 ∧ k = 0 ∧ c = 0 ∧ "MODP" = m))

theorem exists_legal_iff_rowHolds :
    (∃ i, decode ⟨mkCw op rd rs k c z, d⟩ = .legal i ∧ i.mnemonic = m) ↔ RowHolds op rd rs k c z m := by
  simp only [decode_mkCw, RowHolds, and_assoc, exists_and_left, or_and_right, exists_or, exists_eq_left',
    Instr.mnemonic]

theorem OpRow.spells_ofFields (o : BitVec 4) (rdMask rsMask : BitVec 2) (kMask cMask : BitVec 3) (n : Nat) :
    (OpRow.ofFields m o rdMask rsMask kMask cMask n).spells (mkCw op rd rs k c z) = true ↔
      z = 0 ∧ op = o ∧ rd &&& rdMask = 0 ∧ rs &&& rsMask = 0 ∧ k &&& kMask = 0 ∧ c &&& cMask = 0 ∧ k.toNat < n := by
  have hop : op &&& 15 = op := BitVec.and_allOnes
  have hz : z &&& 3 = z := BitVec.and_allOnes
  simp only [OpRow.spells, OpRow.ofFields, mkCw_and, hop, hz, Bool.and_eq_true, beq_iff_eq, mkCw_inj, mkCw_k,
    decide_eq_true_eq]
  tauto

theorem exists_row_iff_rowHolds :
    (∃ r ∈ opTable, r.spells (mkCw op rd rs k c z) = true ∧ r.mnemonic = m) ↔ RowHolds op rd rs k c z m := by
  have ones2 (x : BitVec 2) : x &&& 3 = x := BitVec.and_allOnes
  have ones3 (x : BitVec 3) : x &&& 7 = x := BitVec.and_allOnes
  have zero2 (x : BitVec 2) : x &&& 0 = 0 := BitVec.and_zero
  have zero3 (x : BitVec 3) : x &&& 0 = 0 := BitVec.and_zero
  have word : k.toNat < 5 ↔ k.toNat ≤ 4 := Nat.lt_succ_iff
  have slot : k.toNat < 6 ↔ k.toNat ≤ 5 := Nat.lt_succ_iff
  simp only [opTable_eq_ofFields, List.mem_cons, List.not_mem_nil, or_false, exists_eq_or_imp, exists_eq_left,
    OpRow.spells_ofFields, OpRow.ofFields_mnemonic, ones2, ones3, zero2, zero3, word, slot, k.isLt, RowHolds,
    true_and, and_true, and_assoc, ← and_or_left]

end Fields

/-- The decoder and the table accept the same words with the same mnemonics. -/
theorem exists_legal_iff_exists_row (cmd : Command) (m : String) :
    (∃ i, decode cmd = .legal i ∧ i.mnemonic = m) ↔ ∃ r ∈ opTable, r.spells cmd.cw = true ∧ r.mnemonic = m := by
  obtain ⟨cw, d⟩ := cmd
  rw [← mkCw_fields cw, exists_legal_iff_rowHolds, exists_row_iff_rowHolds]

theorem exists_legal_iff_exists_spells (cmd : Command) :
    (∃ i, decode cmd = .legal i) ↔ ∃ r ∈ opTable, r.spells cmd.cw = true := by
  constructor
  · rintro ⟨i, h⟩
    obtain ⟨r, hr, hs, -⟩ := (exists_legal_iff_exists_row cmd i.mnemonic).mp ⟨i, h, rfl⟩
    exact ⟨r, hr, hs⟩
  · rintro ⟨r, hr, hs⟩
    obtain ⟨i, h, -⟩ := (exists_legal_iff_exists_row cmd r.mnemonic).mpr ⟨r, hr, hs, rfl⟩
    exact ⟨i, h⟩

/-! ## No word has two rows -/

/-- Every row fixes the opcode. -/
theorem OpRow.op_of_spells {r : OpRow} (hr : r ∈ opTable) {cw : Cw} (h : r.spells cw = true) :
    cw.op = Cw.op r.pattern := by
  have hmask : ∀ r ∈ opTable, Cw.op r.mask = BitVec.allOnes 4 := by decide
  simp only [OpRow.spells, Bool.and_eq_true, beq_iff_eq] at h
  calc cw.op = cw.op &&& Cw.op r.mask := by rw [hmask r hr, BitVec.and_allOnes]
    _ = Cw.op (cw &&& r.mask) := BitVec.extractLsb'_and.symm
    _ = Cw.op r.pattern := by rw [h.1]

/-- The rows' opcodes are distinct. -/
theorem opTable_eq_of_op : ∀ a ∈ opTable, ∀ b ∈ opTable, Cw.op a.pattern = Cw.op b.pattern → a = b := by decide

theorem OpRow.eq_of_spells {a b : OpRow} (ha : a ∈ opTable) (hb : b ∈ opTable) {cw : Cw} (hsa : a.spells cw = true)
    (hsb : b.spells cw = true) : a = b :=
  opTable_eq_of_op a ha b hb ((OpRow.op_of_spells ha hsa).symm.trans (OpRow.op_of_spells hb hsb))

theorem opTable_pairwise_disjoint (cw : Cw) :
    opTable.Pairwise fun a b => ¬ (a.spells cw = true ∧ b.spells cw = true) :=
  List.Nodup.pairwise_of_forall_ne (by decide) fun _ ha _ hb hne ⟨hsa, hsb⟩ => hne (OpRow.eq_of_spells ha hb hsa hsb)

/-- Settles O10: the decoder and the table ask the same of the six fields; the row of the instruction's mnemonic spells
the word, and as rows have opcodes of their own it is the only one that does. -/
theorem decoderAgreesWithOpcodeMap : Obligations.DecoderAgreesWithOpcodeMap := by
  refine ⟨exists_legal_iff_exists_spells, fun cmd i r h hr hs => ?_, opTable_pairwise_disjoint⟩
  obtain ⟨q, hq, hsq, hm⟩ := (exists_legal_iff_exists_row cmd i.mnemonic).mp ⟨i, h, rfl⟩
  rw [OpRow.eq_of_spells hr hq hs hsq, hm]

/-! ## Illegal words -/

theorem instr_eq_none_iff_not_legal (d : Decoded) : d.instr? = none ↔ ¬ ∃ i, d = .legal i := by
  cases d <;> simp [Decoded.instr?]

theorem instr_eq_none_iff_no_row (cw : Cw) (d : Word) :
    (decode ⟨cw, d⟩).instr? = none ↔ ∀ r ∈ opTable, r.spells cw = false := by
  simp only [instr_eq_none_iff_not_legal, exists_legal_iff_exists_spells, not_exists, not_and, Bool.not_eq_true]

/-- R63 (a), (b), (c) opcode by opcode, (d) and (e). -/
theorem instr_eq_none_iff_fields (op : BitVec 4) (rd rs : BitVec 2) (k c : BitVec 3) (z : BitVec 2) (d : Word) :
    (decode ⟨mkCw op rd rs k c z, d⟩).instr? = none ↔
      (op = 0 ∨ op = 0xC ∨ op = 0xD ∨ op = 0xE ∨ op = 0xF) ∨ z ≠ 0 ∨
      ((op = 1 ∨ op = 3) ∧ (rs ≠ 0 ∨ c ≠ 0)) ∨ ((op = 2 ∨ op = 4) ∧ (rd ≠ 0 ∨ c ≠ 0)) ∨
      (op = 5 ∧ rs ≠ 0) ∨ ((op = 6 ∨ op = 7) ∧ (rd ≠ 0 ∨ k ≠ 0 ∨ c ≠ 0)) ∨ (op = 8 ∧ k ≠ 0) ∨
      ((op = 9 ∨ op = 10) ∧ (k ≠ 0 ∨ c ≠ 0)) ∨ (op = 11 ∧ (rs ≠ 0 ∨ k ≠ 0 ∨ c ≠ 0)) ∨
      ((op = 1 ∨ op = 2) ∧ 5 ≤ k.toNat) ∨ ((op = 3 ∨ op = 4) ∧ 6 ≤ k.toNat) := by
  have word : 5 ≤ k.toNat ↔ ¬ k.toNat ≤ 4 := by omega
  have slot : 6 ≤ k.toNat ↔ ¬ k.toNat ≤ 5 := by omega
  simp only [instr_eq_none_iff_not_legal, decode_mkCw, word, slot]
  obtain ⟨⟨n, hn⟩⟩ := op
  interval_cases n <;> simp [or_iff_not_imp_left]

/-- Settles O11: R63's conditions negate the fields' conditions under which the decoder accepts, which are the table's;
0x0000 and 0xFFFF match none of the eleven rows. -/
theorem illegalWordsAndTheirAnswer : Obligations.IllegalWordsAndTheirAnswer := by
  refine ⟨fun op rd rs k c z d => ⟨instr_eq_none_iff_fields op rd rs k c z d, instr_eq_none_iff_no_row _ d⟩,
    fun s cmd rest hinput hnone => ?answer, fun d => ⟨?zeros, ?ones⟩, fun rd rs k c d => ⟨?mkls, ?decomp⟩⟩
  case answer =>
    obtain ⟨why, hd⟩ := (instr_eq_none _).mp hnone
    exact Machine.step_illegal hinput hd
  case zeros => exact (instr_eq_none_iff_no_row _ d).mpr (by decide)
  case ones => exact (instr_eq_none_iff_no_row _ d).mpr (by decide)
  case mkls => simp [instr_eq_some, decode_mkCw]
  case decomp => simp [instr_eq_some, decode_mkCw]

end Sys2Proof
end

section
/-! PROOFS. The write data (R58, R59): the decoder takes it up for opcodes 1 and 3 alone. -/

namespace Sys2Proof

theorem decode_wdata {cw : Cw} (hwrn : cw.op ≠ 1) (hwrl : cw.op ≠ 3) (d d' : Word) :
    decode ⟨cw, d⟩ = decode ⟨cw, d'⟩ := by
  unfold decode
  revert hwrn hwrl
  generalize cw.op = op
  intro hwrn hwrl
  obtain ⟨⟨n, hn⟩⟩ := op
  interval_cases n
  · rfl
  · exact absurd rfl hwrn
  · rfl
  · exact absurd rfl hwrl
  all_goals rfl

namespace Machine

/-- A presented command steps as what it decodes to. -/
theorem step_present_congr {s : State} {cmd cmd' : Command} (h : decode cmd = decode cmd') :
    step (s.present cmd) = step (s.present cmd') := by
  match hd : decode cmd' with
  | .legal i => rw [step_legal (s.present_input cmd) (h.trans hd), step_legal (s.present_input cmd') hd]; rfl
  | .illegal why => rw [step_illegal (s.present_input cmd) (h.trans hd), step_illegal (s.present_input cmd') hd]; rfl

/-- Settles O13: the two commands decode alike. -/
theorem writeDataIgnoredByOtherCommands : Obligations.WriteDataIgnoredByOtherCommands :=
  fun _ _ d d' hwrn hwrl => step_present_congr (decode_wdata hwrn hwrl d d')

end Machine

end Sys2Proof
end

section
/-! PROOFS. The read data of a response (R60): how each command ends. -/

namespace Sys2Proof.Machine

/-- A command ends in `done`, in an error, or, if it is a read, with a response. -/
theorem exec_ends (i : Instr) (s : State) :
    (∃ u, exec i s = done u) ∨ (∃ e, exec i s = raise e s) ∨ (Instr.IsRead i ∧ ∃ v, exec i s = respond v s) := by
  cases i with
  | wrn nd j d => exact (execWrn_cases s nd j d).imp (fun ⟨_, _, _, e⟩ => ⟨_, e⟩) fun ⟨_, e⟩ => .inl ⟨_, e⟩
  | wrl sd j d => exact (execWrl_cases s sd j d).imp (fun ⟨_, _, _, e⟩ => ⟨_, e⟩) fun ⟨_, e⟩ => .inl ⟨_, e⟩
  | mkls sd w c => exact (execMkls_cases s sd w c).imp (fun ⟨_, _, e⟩ => ⟨_, e⟩) fun ⟨_, e⟩ => .inl ⟨_, e⟩
  | decomp sd ns c =>
    obtain ⟨-, -, e⟩ | ⟨-, -, e⟩ | ⟨-, e⟩ := execDecomp_cases s sd ns c
    · exact .inl ⟨_, e⟩
    · exact .inr (.inl ⟨_, e⟩)
    · exact .inr (.inl ⟨_, e⟩)
  | norm sd ss => exact (execNorm_cases s sd ss).imp (fun ⟨_, e⟩ => ⟨_, e⟩) fun ⟨_, e⟩ => .inl ⟨_, e⟩
  | recomp nd ss => exact (execRecomp_cases s nd ss).imp (fun ⟨_, e⟩ => ⟨_, e⟩) fun ⟨_, e⟩ => .inl ⟨_, e⟩
  | modp sd => exact .inl ⟨_, rfl⟩
  | rdn ns j =>
    obtain ⟨-, v, -, e⟩ | ⟨-, e⟩ := execRdn_cases s ns j
    · exact .inr (.inr ⟨.inl ⟨ns, j, rfl⟩, v, e⟩)
    · exact .inr (.inl ⟨_, e⟩)
  | rdl ss j =>
    obtain ⟨-, v, -, e⟩ | ⟨-, e⟩ := execRdl_cases s ss j
    · exact .inr (.inr ⟨.inr (.inl ⟨ss, j, rfl⟩), v, e⟩)
    · exact .inr (.inl ⟨_, e⟩)
  | rdc ss => exact .inr (.inr ⟨.inr (.inr (.inl ⟨ss, rfl⟩)), _, rfl⟩)
  | valid ss =>
    obtain ⟨-, e⟩ | ⟨-, e⟩ := execValid_cases s ss
    · exact .inr (.inr ⟨.inr (.inr (.inr ⟨ss, rfl⟩)), _, e⟩)
    · exact .inr (.inl ⟨_, e⟩)

/-- Only a read that succeeds can return data. -/
theorem exec_rdata {i : Instr} {s t : State} {r : Response} (h : exec i s = .next t) (hr : t.rsp = some r) :
    r.rdata = 0 ∨ r.status = .ok ∧ Instr.IsRead i := by
  obtain ⟨u, e⟩ | ⟨err, e⟩ | ⟨hi, v, e⟩ := exec_ends i s <;> cases e.symm.trans h <;> cases hr
  · exact .inl rfl
  · exact .inl rfl
  · exact .inr ⟨rfl, hi⟩

/-- Settles O28: what returns data is a read that succeeds, and none of the cases is one. -/
theorem noDataMeansReadDataZero : Obligations.NoDataMeansReadDataZero := by
  intro i s t r h hr hcase
  refine (exec_rdata h hr).resolve_right fun ⟨hok, hread⟩ => ?_
  obtain herr | ⟨n, j, d, rfl⟩ | ⟨n, j, d, rfl⟩ | ⟨n, w, c, rfl⟩ | ⟨n, m, c, rfl⟩ | ⟨n, m, rfl⟩ | ⟨n, m, rfl⟩ |
    ⟨n, rfl⟩ := hcase
  · exact herr hok
  all_goals simp [Instr.IsRead] at hread

end Sys2Proof.Machine
end

section
/-! PROOFS. The latency of a command at the pins (R61, R151). -/

namespace Sys2Proof.Machine

/-- Edges without reset, no more of them than the latency still has, count it down and do nothing else. -/
theorem Port.edges_inFlight {r : Response} {later : List PinsIn} (hrst : ∀ x ∈ later, x.rst = false) :
    ∀ {p : Port}, p.unit.rsp = some r → later.length ≤ p.left →
      p.edges later = .next { p with left := p.left - later.length } := by
  induction later with
  | nil => exact fun _ _ => rfl
  | cons pins rest ih =>
    intro p hr hle
    obtain ⟨hpins, hrest⟩ := List.forall_mem_cons.mp hrst
    rw [List.length_cons] at hle
    obtain ⟨n, hn⟩ : ∃ n, p.left = n + 1 := ⟨p.left - 1, by omega⟩
    have hq := ih hrest (p := { p with left := n }) hr (show rest.length ≤ n by omega)
    simp only [Port.edges, Port.edge_busy hpins hr hn, hq, hn, List.length_cons, Nat.add_sub_add_right]

/-- Settles O56: the number is the latency the port takes on with the command. -/
theorem portAnswersAfterItsLatency : Obligations.PortAnswersAfterItsLatency := by
  intro p pins h hready hv
  obtain ⟨a, r, -, haccept⟩ := p.accept_next pins.cmd
  refine ⟨_, r, Config.latencyExtra p.accepted pins.cmd p.unit.arch,
    (Port.edge_accept h ((Port.out_cmdReady_iff h).mp hready) hv).trans haccept, rfl, fun later hrst hle => ?_⟩
  refine ⟨_, Port.edges_inFlight hrst rfl hle, fun x hx => ?_⟩
  rw [Port.out_rsp _ hx]
  exact if_congr (by simp only; omega) rfl rfl

end Sys2Proof.Machine
end

section
/-! PROOFS. The pseudo-instructions (R66): commands in a row that load one register, element by element. -/

namespace Sys2Proof.Machine

/-! ## The expansions -/

theorem ldn_eq (nd : NReg) (v : Big) : ldn nd v = [.wrn nd 0 (v.extractLsb' 0 64), .wrn nd 1 (v.extractLsb' 64 64),
    .wrn nd 2 (v.extractLsb' 128 64), .wrn nd 3 (v.extractLsb' 192 64), .wrn nd 4 (v.extractLsb' 256 64)] := rfl

theorem ldls_five_eq (sd : SReg) (l0 l1 l2 l3 l4 : Word) : ldls sd [l0, l1, l2, l3, l4] =
    [.wrl sd 0 l0, .wrl sd 1 l1, .wrl sd 2 l2, .wrl sd 3 l3, .wrl sd 4 l4, .mkls sd 5 5] := rfl

theorem ldls_six_eq (sd : SReg) (l0 l1 l2 l3 l4 l5 : Word) : ldls sd [l0, l1, l2, l3, l4, l5] =
    [.wrl sd 0 l0, .wrl sd 1 l1, .wrl sd 2 l2, .wrl sd 3 l3, .wrl sd 4 l4, .wrl sd 5 l5, .mkls sd 6 6] := rfl

/-! ## Loading a register -/

variable (s : State) (is : List Instr)

/-- `s` with an integer register loaded and the response OK, 0. -/
def State.loadN (r : NReg) (v : Big) : State := { s with arch := s.arch.writeN r v, rsp := some ⟨.ok, 0⟩ }

/-- `s` with a LimbSet register loaded and the response OK, 0. -/
def State.loadS (r : SReg) (v : LimbSetReg) : State := { s with arch := s.arch.writeS r v, rsp := some ⟨.ok, 0⟩ }

/-- Commands in a row do not read the response channel. -/
theorem execAll_cons_rsp (i : Instr) (x : Option Response) :
    execAll (i :: is) { s with rsp := x } = execAll (i :: is) s := by
  simp only [execAll, exec_rsp]

/-- A load of what the register holds already shows in nothing that follows it. -/
theorem execAll_cons_loadN_readN (i : Instr) (r : NReg) :
    execAll (i :: is) (s.loadN r (s.readN r)) = execAll (i :: is) s := by
  rw [State.loadN, State.readN_arch, Arch.writeN_readN, execAll_cons_rsp]

theorem execAll_cons_loadS_readS (i : Instr) (r : SReg) :
    execAll (i :: is) (s.loadS r (s.readS r)) = execAll (i :: is) s := by
  rw [State.loadS, State.readS_arch, Arch.writeS_readS, execAll_cons_rsp]

theorem exec_wrn_loadN {r : NReg} {j : Count} {d : Word} {u v : Big} (h : withWord? u j d = some v) :
    exec (.wrn r j d) (s.loadN r u) = .next (s.loadN r v) := by
  simp [exec, execWrn, State.loadN, State.readN_arch, h, done_writeN]

theorem exec_wrl_loadS {r : SReg} {i : Count} {d : Word} {u v : LimbSetReg} (h : u.withSlot? i d = some v) :
    exec (.wrl r i d) (s.loadS r u) = .next (s.loadS r v) := by
  simp [exec, execWrl, State.loadS, State.readS_arch, h, done_writeS]

theorem exec_mkls_loadS {r : SReg} {c : Count} {u : LimbSetReg} (h : isLs c = true) :
    exec (.mkls r c c) (s.loadS r u) = .next (s.loadS r { u with cnt := c }) := by
  simp [exec, execMkls, State.loadS, State.readS_arch, h, done_writeS]

theorem execAll_wrl_loadS {r : SReg} {i : Count} {d : Word} {u v : LimbSetReg} (h : u.withSlot? i d = some v) :
    execAll (.wrl r i d :: is) (s.loadS r u) = execAll is (s.loadS r v) := execAll_cons (exec_wrl_loadS s h)

/-! ## LDN -/

/-- The command of LDN that writes word j of v. -/
def wrnWord (r : NReg) (v : Big) (j : Nat) : Instr :=
  .wrn r (BitVec.ofNat 3 j) ((v >>> (Config.LB * j)).setWidth 64)

theorem ldn_eq_map_wrnWord (r : NReg) (v : Big) : ldn r v = (List.range 5).map (wrnWord r v) := rfl

/-- `wrnWord` gives the register word j of v and leaves it the others. -/
theorem exec_wrnWord_loadN (r : NReg) (v u : Big) {j : Nat} (hj : j < 5) : ∃ w,
    exec (wrnWord r v j) (s.loadN r u) = .next (s.loadN r w) ∧
    ∀ m : Count, wordOf? w m = if m.toNat = j then wordOf? v m else wordOf? u m := by
  have hidx : (BitVec.ofNat 3 j).toNat = j := Nat.mod_eq_of_lt (by omega)
  obtain ⟨w, hw⟩ := Option.isSome_iff_exists.mp
    ((withWord?_isSome u (BitVec.ofNat 3 j) ((v >>> (Config.LB * j)).setWidth 64)).trans (decide_eq_true (by omega)))
  refine ⟨w, exec_wrn_loadN s hw, fun m => ?_⟩
  by_cases hm : m = BitVec.ofNat 3 j
  · subst hm
    rw [wordOf?_withWord?_same hw]
    simp [hidx, wordOf?, hj]
  · have hne : m.toNat ≠ j := fun e => hm (BitVec.eq_of_toNat_eq (e.trans hidx.symm))
    rw [wordOf?_withWord?_ne hw hm, if_neg hne]

/-- In a row such commands give the register the words of v that they name and leave it the others. -/
theorem execAll_wrnWord_loadN (r : NReg) (v : Big) {js : List Nat} (hjs : ∀ j ∈ js, j < 5) : ∀ u : Big, ∃ w,
    execAll (js.map (wrnWord r v)) (s.loadN r u) = .next (s.loadN r w) ∧
    ∀ m : Count, wordOf? w m = if m.toNat ∈ js then wordOf? v m else wordOf? u m := by
  induction js with
  | nil => exact fun u => ⟨u, rfl, fun m => by simp⟩
  | cons j js ih =>
    intro u
    obtain ⟨hj, hrest⟩ := List.forall_mem_cons.mp hjs
    obtain ⟨w, hexec, hw⟩ := exec_wrnWord_loadN s r v u hj
    obtain ⟨w', hexec', hw'⟩ := ih hrest w
    refine ⟨w', (execAll_cons hexec).trans hexec', fun m => ?_⟩
    rw [hw', hw]
    by_cases hm : m.toNat = j <;> simp [hm]

theorem execAll_ldn (r : NReg) (v : Big) : execAll (ldn r v) s = .next (s.loadN r v) := by
  obtain ⟨w, hexec, hw⟩ := execAll_wrnWord_loadN s r v (fun _ => List.mem_range.mp) (s.readN r)
  have hwv : w = v := eq_of_words fun m => by
    by_cases hm : m.toNat < 5
    · rw [hw, if_pos (List.mem_range.mpr hm)]
    · simp [wordOf?, hm]
  calc execAll (ldn r v) s = execAll (ldn r v) (s.loadN r (s.readN r)) := by rw [ldn_eq, execAll_cons_loadN_readN]
    _ = .next (s.loadN r v) := by rw [ldn_eq_map_wrnWord, hexec, hwv]

/-! ## LDLS -/

theorem execAll_ldls_five (r : SReg) (l0 l1 l2 l3 l4 : Word) : execAll (ldls r [l0, l1, l2, l3, l4]) s =
    .next (s.loadS r ⟨l0, l1, l2, l3, l4, (s.readS r).l5, 5⟩) := by
  rw [ldls_five_eq, ← execAll_cons_loadS_readS (r := r), execAll_wrl_loadS s _ rfl, execAll_wrl_loadS s _ rfl,
    execAll_wrl_loadS s _ rfl, execAll_wrl_loadS s _ rfl, execAll_wrl_loadS s _ rfl]
  exact execAll_cons (exec_mkls_loadS s rfl)

theorem execAll_ldls_six (r : SReg) (l0 l1 l2 l3 l4 l5 : Word) : execAll (ldls r [l0, l1, l2, l3, l4, l5]) s =
    .next (s.loadS r ⟨l0, l1, l2, l3, l4, l5, 6⟩) := by
  rw [ldls_six_eq, ← execAll_cons_loadS_readS (r := r), execAll_wrl_loadS s _ rfl, execAll_wrl_loadS s _ rfl,
    execAll_wrl_loadS s _ rfl, execAll_wrl_loadS s _ rfl, execAll_wrl_loadS s _ rfl, execAll_wrl_loadS s _ rfl]
  exact execAll_cons (exec_mkls_loadS s rfl)

/-- Settles O53: LDN leaves the register with the five words of v, and so equal to v; LDLS writes slot after slot, then
the count. -/
theorem pseudoInstructionsLoad : Obligations.PseudoInstructionsLoad :=
  ⟨ldn_eq, ldls_five_eq, ldls_six_eq, fun nd v s => execAll_ldn s nd v,
    fun sd l0 l1 l2 l3 l4 s => execAll_ldls_five s sd l0 l1 l2 l3 l4,
    fun sd l0 l1 l2 l3 l4 l5 s => execAll_ldls_six s sd l0 l1 l2 l3 l4 l5⟩

end Sys2Proof.Machine
end

section
/-! PROOFS. The host transfer commands (R72 to R76): what each does when its index names an element, its answer when
it does not, and the words that spell it. -/

namespace Sys2Proof

/-- The instruction a decoder's answer gives, from the condition under which it is that instruction. -/
theorem instr_eq_ite {d : Decoded} {i : Instr} {p : Prop} [Decidable p] (h : ∀ j, d = .legal j ↔ p ∧ i = j) :
    d.instr? = if p then some i else none :=
  Option.ext fun j => by rw [instr_eq_some, h j, Option.ite_none_right_eq_some, Option.some.injEq]

end Sys2Proof

namespace Sys2Proof.Machine

/-! ## Words as numbers -/

theorem bits64_of_wordOf? {v : Big} {j : Count} {w : Word} (h : wordOf? v j = some w) :
    bits64 v.toNat j.toNat = w.toNat :=
  (wordOf?_toNat h).symm

/-- Registers with the same word m have the same number there. -/
theorem bits64_congr {v v' : Big} {m : Count} (hm : m.toNat ≤ 4) (h : wordOf? v' m = wordOf? v m) :
    bits64 v'.toNat m.toNat = bits64 v.toNat m.toNat := by
  obtain ⟨w, hw⟩ := Option.isSome_iff_exists.mp ((wordOf?_isSome v m).trans (decide_eq_true hm))
  rw [bits64_of_wordOf? hw, bits64_of_wordOf? (h.trans hw)]

/-- A register with word j replaced has the number of every other word as it was. -/
theorem bits64_withWord?_ne {v v' : Big} {j : Count} {d : Word} (h : withWord? v j d = some v') {m : Nat}
    (hm : m ≤ 4) (hne : m ≠ j.toNat) : bits64 v'.toNat m = bits64 v.toNat m := by
  obtain ⟨i, rfl⟩ : ∃ i : Count, i.toNat = m := ⟨BitVec.ofNat 3 m, Nat.mod_eq_of_lt (by omega)⟩
  exact bits64_congr hm (wordOf?_withWord?_ne h fun hij => hne (congrArg BitVec.toNat hij))

/-! ## The integer registers -/

/-- Settles O30: the word written reads back as the data, the other words read as before. -/
theorem wrnWritesOneWord : Obligations.WrnWritesOneWord := by
  refine ⟨fun nd j data s hj => ?word, fun nd j data s hj => ?illegal, fun rd rs k c z d => ?encoding⟩
  case word =>
    obtain ⟨-, v, hv, hexec⟩ | ⟨hge, -⟩ := execWrn_cases s nd j data
    · exact ⟨v, hexec, bits64_of_wordOf? (wordOf?_withWord?_same hv), fun m => bits64_withWord?_ne hv⟩
    · omega
  case illegal => exact ((execWrn_cases s nd j data).resolve_left fun ⟨hle, _⟩ => by omega).2
  case encoding => exact instr_eq_ite fun i => by simp [decode_mkCw, and_assoc, and_left_comm]

/-- Settles O31: the element the meaning reads is the word as R14 defines it. -/
theorem rdnReadsOneWord : Obligations.RdnReadsOneWord := by
  refine ⟨fun ns j s hj => ?word, fun ns j s hj => ?illegal, fun rd rs k c z d => ?encoding⟩
  case word =>
    obtain ⟨-, v, hv, hexec⟩ | ⟨hge, -⟩ := execRdn_cases s ns j
    · exact ⟨v, hexec, (bits64_of_wordOf? hv).symm⟩
    · omega
  case illegal => exact ((execRdn_cases s ns j).resolve_left fun ⟨hle, _⟩ => by omega).2
  case encoding => exact instr_eq_ite fun i => by simp [decode_mkCw, and_assoc, and_left_comm]

/-! ## The LimbSet registers -/

/-- Settles O32: the register written differs from the one before in slot i alone. -/
theorem wrlWritesOneSlot : Obligations.WrlWritesOneSlot := by
  refine ⟨fun sd i data s hi => ?slot, fun sd i data s hi => ?illegal, fun rd rs k c z d => ?encoding⟩
  case slot =>
    obtain ⟨-, r, hr, hexec⟩ | ⟨hge, -⟩ := execWrl_cases s sd i data
    · have hslot := LimbSetReg.slot?_withSlot? hr
      exact ⟨r, hexec, (hslot i).trans (if_pos rfl), LimbSetReg.withSlot?_cnt hr,
        fun m hm => (hslot m).trans (if_neg hm)⟩
    · omega
  case illegal => exact ((execWrl_cases s sd i data).resolve_left fun ⟨hle, _⟩ => by omega).2
  case encoding => exact instr_eq_ite fun i => by simp [decode_mkCw, and_assoc, and_left_comm]

/-- Settles O33: the element the meaning reads is slot i of the six, whatever the count is. -/
theorem rdlReadsOneSlot : Obligations.RdlReadsOneSlot := by
  refine ⟨fun ss i s hi => ?slot, fun ss i s hi => ?illegal, fun rd rs k c z d => ?encoding⟩
  case slot =>
    obtain ⟨-, v, hv, hexec⟩ | ⟨hge, -⟩ := execRdl_cases s ss i
    · exact ⟨v, hexec, hv⟩
    · omega
  case illegal => exact ((execRdl_cases s ss i).resolve_left fun ⟨hle, _⟩ => by omega).2
  case encoding => exact instr_eq_ite fun i => by simp [decode_mkCw, and_assoc, and_left_comm]

/-- The values the count invariant allows (R24). -/
theorem countOk_iff (c : Count) : countOk c = true ↔ c = 0 ∨ c = 5 ∨ c = 6 := by
  simp only [countOk, Bool.or_eq_true, beq_iff_eq, isLs_iff]

/-- RDC answers OK with the raw count on every state (R76). -/
theorem exec_rdc (ss : SReg) (s : State) :
    exec (.rdc ss) s = .next { s with rsp := some ⟨.ok, (s.readS ss).cnt.setWidth 64⟩ } := rfl

/-- Settles O34: zero-extension keeps the count's number, and so 0, 5 and 6 where the invariant holds. -/
theorem rdcReadsTheCount : Obligations.RdcReadsTheCount := by
  refine ⟨fun ss s => ⟨_, exec_rdc ss s, BitVec.toNat_setWidth_of_le (by decide)⟩,
    fun ss s t r hinv h hr => ?values, fun rd rs k c z d => ?encoding⟩
  case values =>
    cases (exec_rdc ss s).symm.trans h
    cases hr
    obtain hc | hc | hc := (countOk_iff _).mp (hinv ss)
    · exact .inl (congrArg (BitVec.setWidth 64) hc)
    · exact .inr (.inl (congrArg (BitVec.setWidth 64) hc))
    · exact .inr (.inr (congrArg (BitVec.setWidth 64) hc))
  case encoding => exact instr_eq_ite fun i => by simp [decode_mkCw, and_assoc, and_comm, and_left_comm]

end Sys2Proof.Machine
end

section
/-! PROOFS. The LimbSet container's two commands (R82, R83): MKLS's shape checks, and VALID's answer as a statement
about the slots below the count. -/

namespace Sys2Proof.Machine

/-- Settles O35: the register written is the old one with the count replaced, so its slots are the old ones. -/
theorem mklsChecksShapeOnly : Obligations.MklsChecksShapeOnly := by
  refine ⟨fun sd cnt s hcnt => ?set, fun sd wcnt cnt s hbad => ?shape, fun rd rs k c z d => ?encoding⟩
  case set =>
    obtain ⟨-, -, hexec⟩ | ⟨hbad, -⟩ := execMkls_cases s sd cnt cnt
    · exact ⟨_, hexec, rfl, fun _ => rfl⟩
    · simp [(isLs_iff cnt).mpr hcnt] at hbad
  case shape =>
    refine ((execMkls_cases s sd wcnt cnt).resolve_left fun ⟨heq, hls, _⟩ => ?_).2
    obtain hne | hcnt := hbad
    · exact hne heq
    · simp [(isLs_false_iff cnt).mpr hcnt] at hls
  case encoding => exact instr_eq_ite fun i => by simp [decode_mkCw, and_assoc, and_left_comm]

/-! ## The invariant checker -/

/-- The limbs of a register are the contents of its slots below the count (R25). -/
theorem LimbSetReg.mem_limbs {r : LimbSetReg} {l : Word} :
    l ∈ r.limbs ↔ ∃ i : Count, i.toNat < r.cnt.toNat ∧ r.slot? i = some l := by
  simp only [LimbSetReg.limbs, LimbSetReg.slot?, List.mem_iff_getElem?, List.getElem?_take,
    Option.ite_none_right_eq_some]
  constructor
  · rintro ⟨n, hn, hl⟩
    have e : (BitVec.ofNat 3 n).toNat = n := Nat.mod_eq_of_lt (hn.trans r.cnt.isLt)
    exact ⟨BitVec.ofNat 3 n, by rwa [e], by rwa [e]⟩
  · rintro ⟨i, hi, hl⟩
    exact ⟨i.toNat, hi, hl⟩

/-- The check holds exactly if every slot below the count is within its bound (R83). -/
theorem LimbSetReg.validate_iff (r : LimbSetReg) : r.validate = true ↔
    ∀ i l, i.toNat < r.cnt.toNat → r.slot? i = some l → l.toNat < 2 ^ 51 := by
  simp only [LimbSetReg.validate, List.all_eq_true, decide_eq_true_eq, LimbSetReg.mem_limbs]
  exact ⟨fun h i l hi hl => h l ⟨i, hi, hl⟩, fun h l ⟨i, hi, hl⟩ => h i l hi hl⟩

theorem boolWord_eq_zero_or_one (b : Bool) : boolWord b = 0 ∨ boolWord b = 1 := by cases b <;> decide

theorem boolWord_eq_one_iff (b : Bool) : boolWord b = 1 ↔ b = true := by cases b <;> decide

/-- Settles O36: the read data is 1 exactly if the check on the limbs holds. -/
theorem validChecksEveryLimb : Obligations.ValidChecksEveryLimb := by
  refine ⟨fun ss s hcnt => ?checked, fun ss s h5 h6 => ?shape, fun rd rs k c z d => ?encoding⟩
  case checked =>
    obtain ⟨-, hexec⟩ | ⟨hempty, -⟩ := execValid_cases s ss
    · exact ⟨_, hexec, boolWord_eq_zero_or_one _, (boolWord_eq_one_iff _).trans (LimbSetReg.validate_iff _)⟩
    · simp [(isLs_iff _).mpr hcnt] at hempty
  case shape =>
    refine ((execValid_cases s ss).resolve_left fun ⟨hls, _⟩ => ?_).2
    simp [(isLs_false_iff _).mpr ⟨h5, h6⟩] at hls
  case encoding => exact instr_eq_ite fun i => by simp [decode_mkCw, and_assoc, and_comm, and_left_comm]

end Sys2Proof.Machine
end

section
/-! PROOFS. The Decomposer (R90): the slots of the register it writes, as the digits of the integer. -/

namespace Sys2Proof.Machine

/-- A register written as a whole holds in slot i the i-th value given, or 0 if there is none (R14, R25). -/
theorem LimbSetReg.slot?_ofLimbs (v : List Nat) (c : Count) {i : Count} (hi : i.toNat ≤ 5) :
    (LimbSetReg.ofLimbs v c).slot? i = some (BitVec.ofNat 64 (v.getD i.toNat 0)) := by
  obtain ⟨⟨n, hn⟩⟩ := i
  change n ≤ 5 at hi
  interval_cases n <;> rfl

@[simp] theorem LimbSetReg.ofLimbs_cnt (v : List Nat) (c : Count) : (LimbSetReg.ofLimbs v c).cnt = c := rfl

theorem digits51_getD_lt (v c i : Nat) : (digits51 v c).getD i 0 < 2 ^ 51 := by
  rw [digits51_getD]
  split
  · exact Nat.mod_lt _ (by decide)
  · decide

/-- A digit fits its slot, so the slot's number is the digit. -/
theorem slot?_ofLimbs_digits51 (v c : Nat) (cnt : Count) {i : Count} (hi : i.toNat ≤ 5) :
    ((LimbSetReg.ofLimbs (digits51 v c) cnt).slot? i).map BitVec.toNat =
      some (if i.toNat < c then v / 2 ^ (51 * i.toNat) % 2 ^ 51 else 0) := by
  have hfits : (digits51 v c).getD i.toNat 0 < 2 ^ 64 :=
    (digits51_getD_lt v c i.toNat).trans (by decide)
  rw [LimbSetReg.slot?_ofLimbs _ _ hi, Option.map_some, BitVec.toNat_ofNat, Nat.mod_eq_of_lt hfits, digits51_getD]

/-- Settles O37: a legal count and an integer in range, a legal count and one out of range, and any other count are
the three cases of the meaning, and each excludes the other two. -/
theorem decompWritesTheDigits : Obligations.DecompWritesTheDigits := by
  refine ⟨fun sd ns cnt s hcnt hlt => ?digits, fun sd ns cnt s h5 h6 => ?shape,
    fun sd ns cnt s hcnt hge => ?range, fun rd rs k c z d => ?encoding⟩
  case digits =>
    obtain ⟨-, -, hexec⟩ | ⟨-, hge, -⟩ | ⟨hempty, -⟩ := execDecomp_cases s sd ns cnt
    · exact ⟨_, hexec, LimbSetReg.ofLimbs_cnt _ cnt, fun i => slot?_ofLimbs_digits51 _ _ cnt⟩
    · exact absurd hlt hge.not_gt
    · simp [(isLs_iff cnt).mpr hcnt] at hempty
  case shape =>
    have hempty := (isLs_false_iff cnt).mpr ⟨h5, h6⟩
    obtain ⟨hls, -, -⟩ | ⟨hls, -, -⟩ | ⟨-, hexec⟩ := execDecomp_cases s sd ns cnt
    · simp [hempty] at hls
    · simp [hempty] at hls
    · exact hexec
  case range =>
    obtain ⟨-, hlt, -⟩ | ⟨-, -, hexec⟩ | ⟨hempty, -⟩ := execDecomp_cases s sd ns cnt
    · exact absurd hlt hge.not_gt
    · exact hexec
    · simp [(isLs_iff cnt).mpr hcnt] at hempty
  case encoding => exact instr_eq_ite fun i => by simp [decode_mkCw, and_assoc, and_left_comm]

end Sys2Proof.Machine
end

section
/-! PROOFS. The Normalizer (R100, R105): the loop on fuel runs the pseudocode's loop to its end, where the working limbs
are in bound and limb 5 is 0, so the result is below 2^255; NORM's answer on every count; and results that are not the
least residue. -/

namespace Sys2Proof.Machine

/-! ## Folding the value -/

/-- V(k + 1) of R101, started one fold later. -/
theorem foldedValue_succ (v k : Nat) :
    foldedValue v (k + 1) = foldedValue (v % 2 ^ 255 + 19 * (v / 2 ^ 255)) k := by
  induction k with
  | zero => simp only [foldedValue, Config.FOLD_POS, Config.FOLD, Nat.shiftRight_eq_div_pow]
  | succ k ih => rw [foldedValue, ih, foldedValue]

/-- Two folds bring every value an integer register can hold below 2^255 (R103). -/
theorem foldedValue_two_lt {v : Nat} (h : v < 2 ^ 320) : foldedValue v 2 < 2 ^ 255 := by
  rw [foldedValue_succ, foldedValue_succ, foldedValue]
  omega

/-- The value of a LimbSet fits an integer register (R11 (c)). -/
theorem LimbSetReg.value_lt {r : LimbSetReg} (h : isLs r.cnt = true) : r.value < 2 ^ 320 := by
  have h0 := r.l0.isLt; have h1 := r.l1.isLt; have h2 := r.l2.isLt
  have h3 := r.l3.isLt; have h4 := r.l4.isLt; have h5 := r.l5.isLt
  obtain hc | hc := (isLs_iff _).mp h
  · rw [LimbSetReg.value_five hc]; omega
  · rw [LimbSetReg.value_six hc]; omega

/-! ## The loop and where it ends -/

theorem settles_carryPass (w : Work) : Settles w 1 (carryPass w) := .stable (carryPass_inBound w)

/-- A value below 2^255 carries nothing into limb 5. -/
theorem carryPass_w5_of_lt {w : Work} (h : w.value < 2 ^ 255) : (carryPass w).w5 = 0 :=
  (carryPass_w5 w).trans (Nat.div_eq_of_lt h)

/-- If n folds are enough, n + 1 rounds of fuel run the loop of R100 to its end. -/
theorem normRuns_normLoop {n : Nat} {w : Work} (h : foldedValue w.value n < 2 ^ 255) :
    ∃ p f, NormRuns w p f (normLoop (n + 1) w) := by
  induction n generalizing w with
  | zero =>
    have htop := carryPass_w5_of_lt h
    rw [normLoop_succ, if_pos htop]
    exact ⟨_, _, .leave (settles_carryPass w) htop⟩
  | succ n ih =>
    rw [normLoop_succ]
    split
    case isTrue htop => exact ⟨_, _, .leave (settles_carryPass w) htop⟩
    case isFalse htop =>
      rw [foldedValue_succ, ← foldTop_carryPass_value] at h
      obtain ⟨p, f, hruns⟩ := ih h
      exact ⟨_, _, .fold (settles_carryPass w) htop hruns⟩

/-- The fuel NORM's loop is given is enough for every LimbSet. -/
theorem normRuns_load {r : LimbSetReg} (h : isLs r.cnt = true) :
    ∃ p f, NormRuns (.load r) p f (normLoop passBound (.load r)) :=
  normRuns_normLoop (n := 2) (foldedValue_two_lt ((Work.load_value h).trans_lt (LimbSetReg.value_lt h)))

theorem Settles.inBound {w w' : Work} {p : Nat} (h : Settles w p w') : w'.inBound = true := by
  induction h with
  | stable h => exact h
  | again _ _ ih => exact ih

/-- The loop ends with limbs 0 to 4 in bound and limb 5 zero. -/
theorem NormRuns.inBound_w5 {w w' : Work} {p f : Nat} (h : NormRuns w p f w') : w'.inBound = true ∧ w'.w5 = 0 := by
  induction h with
  | leave settled h => exact ⟨settled.inBound, h⟩
  | fold _ _ _ ih => exact ih

/-! ## The register written -/

/-- Working limbs as the loop leaves them are stored with their value. -/
theorem Work.store_value {w : Work} (h : w.inBound = true) (h5 : w.w5 = 0) : w.store.value = w.value := by
  obtain ⟨h0, h1, h2, h3, h4, -, hc⟩ := Work.store_fields h
  rw [LimbSetReg.value_five hc, h0, h1, h2, h3, h4, Work.value, h5, Nat.zero_mul, Nat.add_zero]

/-- Working limbs as the loop leaves them have a value below 2^255. -/
theorem Work.value_lt_of_inBound {w : Work} (h : w.inBound = true) (h5 : w.w5 = 0) : w.value < 2 ^ 255 := by
  obtain ⟨-, -, -, -, -, htop⟩ := Work.digits_of_inBound h
  omega

/-- NORM's result is below 2^255 (R105). -/
theorem normalized_value_lt {r : LimbSetReg} (h : isLs r.cnt = true) : (normalized r).value < 2 ^ 255 := by
  obtain ⟨p, f, hruns⟩ := normRuns_load h
  obtain ⟨hin, h5⟩ := hruns.inBound_w5
  exact (Work.store_value hin h5).trans_lt (Work.value_lt_of_inBound hin h5)

/-- NORM keeps a value that is already below 2^255, also one that is p or more. -/
theorem normalized_value_of_lt {r : LimbSetReg} (h : isLs r.cnt = true) (hlt : r.value < 2 ^ 255) :
    (normalized r).value = r.value := by
  have htop := carryPass_w5_of_lt ((Work.load_value h).trans_lt hlt)
  rw [normalized, passBound, normLoop_succ, if_pos htop, Work.store_value (carryPass_inBound _) htop, carryPass_value,
    Work.load_value h]

/-! ## NORM's answer -/

theorem State.loadS_readS (s : State) (r : SReg) (v : LimbSetReg) : (s.loadS r v).readS r = v := by
  rw [State.readS_arch, State.loadS, Arch.readS_writeS, if_pos rfl]

theorem exec_norm_loadS {ss : SReg} {s : State} (sd : SReg) (h : isLs (s.readS ss).cnt = true) :
    exec (.norm sd ss) s = .next (s.loadS sd (normalized (s.readS ss))) := by
  obtain ⟨-, hexec⟩ | ⟨hempty, -⟩ := execNorm_cases s sd ss
  · exact hexec
  · simp [h] at hempty

/-- NORM answers OK on a LimbSet alone. -/
theorem isLs_of_exec_norm_ok {sd ss : SReg} {s t : State} (h : exec (.norm sd ss) s = .next t)
    (hok : t.rsp = some ⟨.ok, 0⟩) : isLs (s.readS ss).cnt = true := by
  obtain ⟨hls, -⟩ | ⟨-, hexec⟩ := execNorm_cases s sd ss
  · exact hls
  · cases hexec.symm.trans h
    cases hok

/-- Settles O41: the run is the one the model's fuel makes, and the stored limbs are its end's since that is in
bound. -/
theorem normRunsTheLoop : Obligations.NormRunsTheLoop := by
  refine ⟨fun sd ss s hcnt => ?loop, fun sd ss s h5 h6 => ?shape, fun rd rs k c z d => ?encoding⟩
  case loop =>
    have hls := (isLs_iff _).mpr hcnt
    obtain ⟨p, f, hruns⟩ := normRuns_load hls
    obtain ⟨hin, -⟩ := hruns.inBound_w5
    exact ⟨p, f, _, _, hruns, exec_norm_loadS sd hls, Work.store_fields hin⟩
  case shape =>
    refine ((execNorm_cases s sd ss).resolve_left fun ⟨hls, _⟩ => ?_).2
    simp [(isLs_false_iff _).mpr ⟨h5, h6⟩] at hls
  case encoding => exact instr_eq_ite fun i => by simp [decode_mkCw, and_assoc, and_left_comm]

/-! ## Results that are not the least residue -/

/-- The limbs of p (R29) with d added to limb 0. -/
def pPlus (d : Nat) : LimbSetReg :=
  .ofLimbs [0x7FFFFFFFFFFED + d, 0x7FFFFFFFFFFFF, 0x7FFFFFFFFFFFF, 0x7FFFFFFFFFFFF, 0x7FFFFFFFFFFFF] 5

theorem pPlus_value {d : Nat} (hd : d < 19) : (pPlus d).value = Config.P + d := by
  rw [LimbSetReg.value_five rfl]
  simp [pPlus, LimbSetReg.ofLimbs, Config.P]
  omega

/-- NORM run on a register just loaded. -/
theorem exec_norm_of_loadS (sd ss : SReg) {r : LimbSetReg} (h : isLs r.cnt = true) :
    exec (.norm sd ss) (State.reset.loadS ss r) = .next ((State.reset.loadS ss r).loadS sd (normalized r)) := by
  simpa only [State.loadS_readS] using exec_norm_loadS (s := State.reset.loadS ss r) (ss := ss) sd
    ((congrArg (isLs ·.cnt) (State.loadS_readS _ ss r)).trans h)

/-- Settles O47: below 2^255 nothing is folded, so p + d with d < 19 is its own result, and the congruent sources 0 and
p have two. -/
theorem normResultIsNotTheLeastResidue : Obligations.NormResultIsNotTheLeastResidue := by
  refine ⟨fun sd ss s t h hok => ?range, fun v sd ss hge hlt => ?reached, fun sd ss s hs => ?modulus,
    fun sd ss => ?unequal⟩
  case range =>
    have hls := isLs_of_exec_norm_ok h hok
    cases (exec_norm_loadS sd hls).symm.trans h
    rw [State.loadS_readS]
    exact normalized_value_lt hls
  case reached =>
    have hv : (pPlus (v - Config.P)).value = v :=
      (pPlus_value (by simp only [Config.P] at hge ⊢; omega)).trans (Nat.add_sub_of_le hge)
    refine ⟨_, _, exec_norm_of_loadS sd ss (r := pPlus (v - Config.P)) rfl, rfl, ?_⟩
    rw [State.loadS_readS, normalized_value_of_lt rfl (hv.trans_lt hlt), hv]
  case modulus =>
    have hls : isLs (s.readS ss).cnt = true := by rw [hs]; decide
    rw [exec_norm_loadS sd hls, hs]
    rfl
  case unequal =>
    refine ⟨_, _, _, _, ?_, exec_norm_of_loadS sd ss (r := .ofLimbs [] 5) rfl, rfl,
      exec_norm_of_loadS sd ss (r := pPlus 0) rfl, rfl, ?_⟩
    · rw [State.loadS_readS, State.loadS_readS]
      decide
    · rw [State.loadS_readS, State.loadS_readS]
      decide

end Sys2Proof.Machine
end

section
/-! PROOFS. The Recomposer (R110): the integer it writes, as the weighted sum of the limbs. -/

namespace Sys2Proof.Machine

/-- RECOMP's result is the value of the LimbSet itself, since an integer register has room for it (R11 (c)). -/
theorem toNat_ofNat_value {r : LimbSetReg} (h : isLs r.cnt = true) : (BitVec.ofNat 320 r.value).toNat = r.value :=
  (BitVec.toNat_ofNat _ _).trans (Nat.mod_eq_of_lt (LimbSetReg.value_lt h))

/-- The value of a LimbSet in one formula for both counts: slot 5 has a part in it exactly if the count is 6. -/
theorem LimbSetReg.value_eq_weighted_sum {r : LimbSetReg} (h : isLs r.cnt = true) : r.value =
    r.l0.toNat + r.l1.toNat * 2 ^ 51 + r.l2.toNat * 2 ^ 102 + r.l3.toNat * 2 ^ 153 + r.l4.toNat * 2 ^ 204 +
      if r.cnt = 6 then r.l5.toNat * 2 ^ 255 else 0 := by
  obtain hc | hc := (isLs_iff _).mp h
  · rw [LimbSetReg.value_five hc, if_neg (by simp [hc]), Nat.add_zero]
  · rw [LimbSetReg.value_six hc, if_pos hc]

/-- Settles O38: the integer written is the source's value, which no limb's excess takes beyond the register. -/
theorem recompWritesTheSum : Obligations.RecompWritesTheSum := by
  refine ⟨fun nd ss s hcnt => ?sum, fun nd ss s h5 h6 => ?shape, fun rd rs k c z d => ?encoding⟩
  case sum =>
    have hls := (isLs_iff _).mpr hcnt
    obtain ⟨-, hexec⟩ | ⟨hempty, -⟩ := execRecomp_cases s nd ss
    · exact ⟨_, hexec, (toNat_ofNat_value hls).trans (LimbSetReg.value_eq_weighted_sum hls)⟩
    · simp [hls] at hempty
  case shape =>
    refine ((execRecomp_cases s nd ss).resolve_left fun ⟨hls, _⟩ => ?_).2
    simp [(isLs_false_iff _).mpr ⟨h5, h6⟩] at hls
  case encoding => exact instr_eq_ite fun i => by simp [decode_mkCw, and_assoc, and_left_comm]

end Sys2Proof.Machine
end

section
/-! PROOFS. The FieldConstant registry (R114): the register MODP writes and its one answer on every state. -/

namespace Sys2Proof.Machine

/-- The register written from P_LIMBS holds the limbs of p, slot 5 zero and count 5 (R29, R114). -/
theorem ofLimbs_pLimbs : LimbSetReg.ofLimbs pLimbs 5 =
    ⟨0x7FFFFFFFFFFED, 0x7FFFFFFFFFFFF, 0x7FFFFFFFFFFFF, 0x7FFFFFFFFFFFF, 0x7FFFFFFFFFFFF, 0, 5⟩ := by decide

/-- MODP checks nothing: on every state it loads the constant and answers OK. -/
theorem exec_modp (sd : SReg) (s : State) : exec (.modp sd) s = .next (s.loadS sd (.ofLimbs pLimbs 5)) :=
  done_writeS s sd _

/-- Settles O51: the register loaded is the constant's, and opcode 11 can meet no clause of `decode_mkCw` but MODP's. -/
theorem modpCopiesTheModulus : Obligations.ModpCopiesTheModulus := by
  refine ⟨fun sd s => ?constant, fun rd rs k c z d => ?encoding⟩
  case constant => rw [exec_modp, ofLimbs_pLimbs, State.loadS]
  case encoding => exact instr_eq_ite fun i => by simp [decode_mkCw, and_assoc, and_left_comm]

end Sys2Proof.Machine
end

section
/-! PROOFS. The errors a command can end in (R121, R122, R123): the condition of each, that exec raises the one whose
condition holds and else succeeds, and that an error leaves nothing behind (R125, R126). -/

namespace Sys2Proof

/-- The decoder lets no index through that names no element (R63 (d), (e)). -/
theorem wellFormed_of_decode {cmd : Command} {i : Instr} (h : decode cmd = .legal i) : i.wellFormed = true := by
  obtain ⟨cw, d⟩ := cmd
  rw [← mkCw_fields cw, decode_mkCw] at h
  obtain ⟨-, ⟨-, -, -, hk, rfl⟩ | ⟨-, -, -, hk, rfl⟩ | ⟨-, -, -, hk, rfl⟩ | ⟨-, -, -, hk, rfl⟩ | h⟩ := h
  · exact decide_eq_true (Nat.lt_succ_of_le hk)
  · exact decide_eq_true (Nat.lt_succ_of_le hk)
  · exact decide_eq_true (Nat.lt_succ_of_le hk)
  · exact decide_eq_true (Nat.lt_succ_of_le hk)
  · obtain ⟨-, -, rfl⟩ | ⟨-, -, -, -, rfl⟩ | ⟨-, -, -, -, rfl⟩ | ⟨-, -, rfl⟩ | ⟨-, -, -, rfl⟩ | ⟨-, -, -, rfl⟩ |
      ⟨-, -, -, -, rfl⟩ := h <;> rfl

end Sys2Proof

namespace Sys2Proof.Machine

/-- When a command has an error: R121's and R123's conditions, and an index that names no element (log entry 6). -/
def errorCondition (s : State) (i : Instr) : CmdError → Prop
  | .shape => shapeCondition s i
  | .range => rangeCondition s i
  | .illegal => i.wellFormed = false

/-- No error's condition looks at the host's stream. -/
theorem errorCondition_input {s : State} {i : Instr} {e : CmdError} {rest : List HostInput} :
    errorCondition { s with input := rest } i e ↔ errorCondition s i e := by
  cases e
  · cases i <;> exact Iff.rfl
  · cases i <;> exact Iff.rfl
  · exact Iff.rfl

/-- The command succeeds and writes at most registers. -/
def Succeeds (i : Instr) (s : State) : Prop := ∃ a v, exec i s = respond v { s with arch := a }

variable {s t : State} {i : Instr} {r : Response} {e : CmdError} {cmd : Command} {x : HostInput}
  {rest : List HostInput}

theorem CmdError.status_inj {e e' : CmdError} : e.status = e'.status ↔ e = e' := by
  cases e <;> cases e' <;> decide

/-! ## A command ends as the conditions say -/

theorem not_empty_of_isLs {c : Count} (h : isLs c = true) : ¬ (c ≠ 5 ∧ c ≠ 6) := by
  rw [← isLs_false_iff, h]
  decide

theorem errorCondition_only_illegal (hs : ¬ shapeCondition s i) (hr : ¬ rangeCondition s i) :
    ∀ e, errorCondition s i e → e = .illegal
  | .shape, h => absurd h hs
  | .range, h => absurd h hr
  | .illegal, _ => rfl

theorem errorCondition_only_shape (hw : i.wellFormed = true) (hr : ¬ rangeCondition s i) :
    ∀ e, errorCondition s i e → e = .shape
  | .shape, _ => rfl
  | .range, h => absurd h hr
  | .illegal, h => absurd (hw.symm.trans h) (by decide)

theorem errorCondition_only_range (hw : i.wellFormed = true) (hs : ¬ shapeCondition s i) :
    ∀ e, errorCondition s i e → e = .range
  | .shape, h => absurd h hs
  | .range, _ => rfl
  | .illegal, h => absurd (hw.symm.trans h) (by decide)

/-- exec ends as the conditions say: it succeeds where no error has its condition, and raises the one error that has. -/
def EndsByConditions (i : Instr) (s : State) : Prop :=
  (Succeeds i s ∧ ∀ e, ¬ errorCondition s i e) ∨ ∃ e, exec i s = raise e s ∧ ∀ e', errorCondition s i e' ↔ e' = e

/-- A command with one possible error ends as the conditions say if it raises it on its condition. -/
theorem endsByConditions_of_only (honly : ∀ e', errorCondition s i e' → e' = e)
    (h : (¬ errorCondition s i e ∧ Succeeds i s) ∨ (errorCondition s i e ∧ exec i s = raise e s)) :
    EndsByConditions i s := by
  obtain ⟨hno, hok⟩ | ⟨he, hraise⟩ := h
  · exact .inl ⟨hok, fun e' he' => hno (honly e' he' ▸ he')⟩
  · exact .inr ⟨e, hraise, fun e' => ⟨honly e', fun heq => heq ▸ he⟩⟩

theorem endsByConditions_of_index (hs : ¬ shapeCondition s i) (hr : ¬ rangeCondition s i)
    (h : (i.wellFormed = true ∧ Succeeds i s) ∨ (i.wellFormed = false ∧ exec i s = raise .illegal s)) :
    EndsByConditions i s :=
  endsByConditions_of_only (errorCondition_only_illegal hs hr)
    (h.imp_left (And.imp_left ne_false_of_eq_true))

theorem endsByConditions_of_shape (hw : i.wellFormed = true) (hr : ¬ rangeCondition s i)
    (h : (¬ shapeCondition s i ∧ Succeeds i s) ∨ (shapeCondition s i ∧ exec i s = raise .shape s)) :
    EndsByConditions i s :=
  endsByConditions_of_only (errorCondition_only_shape hw hr) h

/-- The element transfers can only name no element, DECOMP can fail in two ways, and of the others MKLS and those that
take a LimbSet can only have the wrong shape. -/
theorem exec_endsByConditions (i : Instr) (s : State) : EndsByConditions i s := by
  cases i with
  | wrn nd j d =>
    exact endsByConditions_of_index id id ((execWrn_cases s nd j d).imp
      (fun ⟨hj, _, _, h⟩ => ⟨decide_eq_true (Nat.lt_succ_of_le hj), _, _, h⟩)
      fun ⟨hj, h⟩ => ⟨decide_eq_false hj.not_gt, h⟩)
  | rdn ns j =>
    exact endsByConditions_of_index id id ((execRdn_cases s ns j).imp
      (fun ⟨hj, _, _, h⟩ => ⟨decide_eq_true (Nat.lt_succ_of_le hj), s.arch, _, h⟩)
      fun ⟨hj, h⟩ => ⟨decide_eq_false hj.not_gt, h⟩)
  | wrl sd j d =>
    exact endsByConditions_of_index id id ((execWrl_cases s sd j d).imp
      (fun ⟨hj, _, _, h⟩ => ⟨decide_eq_true (Nat.lt_succ_of_le hj), _, _, h⟩)
      fun ⟨hj, h⟩ => ⟨decide_eq_false hj.not_gt, h⟩)
  | rdl ss j =>
    exact endsByConditions_of_index id id ((execRdl_cases s ss j).imp
      (fun ⟨hj, _, _, h⟩ => ⟨decide_eq_true (Nat.lt_succ_of_le hj), s.arch, _, h⟩)
      fun ⟨hj, h⟩ => ⟨decide_eq_false hj.not_gt, h⟩)
  | mkls sd w c =>
    obtain ⟨hw, hc, h⟩ | ⟨hbad, h⟩ := execMkls_cases s sd w c
    · exact endsByConditions_of_shape rfl id
        (.inl ⟨fun hs => hs.elim (· hw) fun ⟨_, hempty⟩ => not_empty_of_isLs hc hempty, _, _, h⟩)
    · refine endsByConditions_of_shape rfl id (.inr ⟨?_, h⟩)
      rw [isLs_false_iff] at hbad
      simp only [shapeCondition]
      tauto
  | rdc ss => exact endsByConditions_of_shape rfl id (.inl ⟨id, s.arch, _, rfl⟩)
  | valid ss =>
    exact endsByConditions_of_shape rfl id ((execValid_cases s ss).imp
      (fun ⟨hc, h⟩ => ⟨not_empty_of_isLs hc, s.arch, _, h⟩) fun ⟨hc, h⟩ => ⟨(isLs_false_iff _).mp hc, h⟩)
  | decomp sd ns c =>
    obtain ⟨hc, hlt, h⟩ | ⟨hc, hge, h⟩ | ⟨hc, h⟩ := execDecomp_cases s sd ns c
    · exact endsByConditions_of_only (errorCondition_only_range rfl (not_empty_of_isLs hc))
        (.inl ⟨fun hr => hr.2.not_gt hlt, _, _, h⟩)
    · exact endsByConditions_of_only (errorCondition_only_range rfl (not_empty_of_isLs hc))
        (.inr ⟨⟨(isLs_iff c).mp hc, hge⟩, h⟩)
    · have hshape := (isLs_false_iff c).mp hc
      exact endsByConditions_of_shape rfl (fun hr => hr.1.elim hshape.1 hshape.2) (.inr ⟨hshape, h⟩)
  | norm sd ss =>
    exact endsByConditions_of_shape rfl id ((execNorm_cases s sd ss).imp
      (fun ⟨hc, h⟩ => ⟨not_empty_of_isLs hc, _, _, h⟩) fun ⟨hc, h⟩ => ⟨(isLs_false_iff _).mp hc, h⟩)
  | recomp nd ss =>
    exact endsByConditions_of_shape rfl id ((execRecomp_cases s nd ss).imp
      (fun ⟨hc, h⟩ => ⟨not_empty_of_isLs hc, _, _, h⟩) fun ⟨hc, h⟩ => ⟨(isLs_false_iff _).mp hc, h⟩)
  | modp sd => exact endsByConditions_of_shape rfl id (.inl ⟨id, _, _, rfl⟩)

/-- An error is answered exactly on its condition. -/
theorem exec_status_iff (h : exec i s = .next t) (hr : t.rsp = some r) (e : CmdError) :
    r.status = e.status ↔ errorCondition s i e := by
  obtain ⟨⟨a, v, hok⟩, hno⟩ | ⟨e', hraise, hiff⟩ := exec_endsByConditions i s
  · cases hok.symm.trans h
    cases hr
    exact iff_of_false e.status_ne_ok.symm (hno e)
  · cases hraise.symm.trans h
    cases hr
    rw [hiff e, CmdError.status_inj, eq_comm]

/-- A command on an error's condition raises it. -/
theorem exec_eq_raise (he : errorCondition s i e) : exec i s = raise e s := by
  obtain ⟨-, hno⟩ | ⟨e', hraise, hiff⟩ := exec_endsByConditions i s
  · exact absurd he (hno e)
  · rwa [(hiff e).mp he]

/-- A command that does not answer OK changes nothing but the response, and returns no data. -/
theorem exec_eq_of_status_ne_ok (h : exec i s = .next t) (hr : t.rsp = some r) (hne : r.status ≠ .ok) :
    t = { s with rsp := some ⟨r.status, 0⟩ } := by
  obtain ⟨⟨a, v, hok⟩, -⟩ | ⟨e, hraise, -⟩ := exec_endsByConditions i s
  · cases hok.symm.trans h
    cases hr
    exact absurd rfl hne
  · cases hraise.symm.trans h
    cases hr
    rfl

/-! ## The step -/

/-- With an input waiting the step does not look at the last response. -/
theorem step_rsp (h : s.input = x :: rest) (y : Option Response) : step { s with rsp := y } = step s := by
  have h' : ({ s with rsp := y } : State).input = x :: rest := h
  cases x with
  | reset => exact (step_reset h').trans (step_reset h).symm
  | command cmd =>
    cases hd : decode cmd with
    | legal i => exact (step_legal h' hd).trans ((exec_rsp _ i y).trans (step_legal h hd).symm)
    | illegal why => exact (step_illegal h' hd).trans (step_illegal h hd).symm

/-- Settles O16: the case of the step with no input. -/
theorem idleStepHoldsState : Obligations.IdleStepHoldsState := fun _ => step_idle

/-- Settles O17: an illegal word raises IllegalCommand; a legal one is answered by the conditions, and its index names
an element, which leaves IllegalCommand no condition. -/
theorem everyCommandIsAnswered : Obligations.EveryCommandIsAnswered := by
  intro s cmd rest hinput
  obtain ⟨a, r, hstep⟩ := step_command hinput
  refine ⟨_, r, hstep, rfl, rfl, ?_⟩
  cases hd : decode cmd with
  | illegal why =>
    cases (step_illegal hinput hd).symm.trans hstep
    exact ⟨rfl, rfl, rfl⟩
  | legal i =>
    have hstatus := exec_status_iff ((step_legal hinput hd).symm.trans hstep) rfl
    have hindex : ¬ errorCondition { s with input := rest } i .illegal := by
      simp [errorCondition, wellFormed_of_decode hd]
    exact ⟨(hstatus .shape).trans errorCondition_input, (hstatus .range).trans errorCondition_input,
      fun hill => hindex ((hstatus .illegal).mp hill)⟩

/-- Settles O20: a RangeError has R123's condition, as every error has its own; with count 6 an integer below 2^306 is
in range; from 2^306 on it is out of range with count 5 and 6, and with another count the shape is wrong. -/
theorem rangeErrorExactlyWhenTooLarge : Obligations.RangeErrorExactlyWhenTooLarge := by
  refine ⟨fun i s t d h hr => ?only, fun sd ns cnt s hc => exec_eq_raise (e := .range) hc,
    fun sd ns s _ hlt => ?six, fun sd ns cnt s t d hge h hr => ?top⟩
  case only =>
    exact ⟨exec_eq_of_status_ne_ok h hr (CmdError.status_ne_ok .range), (exec_status_iff h hr .range).mp rfl⟩
  case six =>
    obtain ⟨-, -, h⟩ | ⟨-, hge, -⟩ | ⟨hempty, -⟩ := execDecomp_cases s sd ns 6
    · exact ⟨_, h, rfl⟩
    · have hsix : 51 * (6 : Count).toNat = 306 := by decide
      rw [hsix] at hge
      exact absurd hlt hge.not_gt
    · exact absurd hempty (by decide)
  case top =>
    obtain ⟨hc, hlt, -⟩ | ⟨-, -, h'⟩ | ⟨-, h'⟩ := execDecomp_cases s sd ns cnt
    · have hmax : 51 * cnt.toNat ≤ 306 := by obtain rfl | rfl := (isLs_iff cnt).mp hc <;> decide
      have hpow : 2 ^ (51 * cnt.toNat) ≤ 2 ^ 306 := Nat.pow_le_pow_right Nat.two_pos hmax
      exact absurd (hlt.trans_le (hpow.trans hge)) (lt_irrefl _)
    · cases h'.symm.trans h
      cases hr
    · cases h'.symm.trans h
      cases hr

/-- Settles O21: an illegal word raises its error, and a legal one that does not answer OK has raised one. -/
theorem errorWritesNothing : Obligations.ErrorWritesNothing := by
  intro s t cmd rest r hinput hstep hr hne
  cases hd : decode cmd with
  | legal i => exact exec_eq_of_status_ne_ok ((step_legal hinput hd).symm.trans hstep) hr hne
  | illegal why =>
    cases (step_illegal hinput hd).symm.trans hstep
    cases hr
    rfl

/-- Settles O22: the failing command leaves only its response, at which the next step does not look. -/
theorem errorLeavesNoTrace : Obligations.ErrorLeavesNoTrace := by
  intro s t cmd x rest r hinput hstep hr hne
  rw [errorWritesNothing s t cmd (x :: rest) r hinput hstep hr hne]
  exact step_rsp (s := { s with input := x :: rest }) rfl _

end Sys2Proof.Machine
end

section
/-! PROOFS. Reset: the step that takes it (R140, R141), what each command does on the state it leaves (R143), and what
it does at the pins (R142). -/

namespace Sys2Proof.Machine

/-! ## Between commands -/

/-- Settles O3: the case of the step whose input is a reset. -/
theorem resetStepClears : Obligations.ResetStepClears := fun _ _ hinput => step_reset hinput

/-! ## Commands on the reset state -/

/-- After reset every LimbSet register is empty (R24, R36). -/
theorem reset_empty (r : SReg) : (State.reset.readS r).cnt ≠ 5 ∧ (State.reset.readS r).cnt ≠ 6 := by
  rw [State.reset_readS]
  decide

/-- After reset every integer register is the number 0 (R36). -/
theorem reset_readN_toNat (r : NReg) : (State.reset.readN r).toNat = 0 := by
  rw [State.reset_readN, BitVec.ofNat_eq_ofNat, BitVec.toNat_zero]

/-- The digits of 0 are zeros, so a register written from them is the zero register but for its count. -/
theorem ofLimbs_digits51_zero (c : Nat) (cnt : Count) :
    LimbSetReg.ofLimbs (digits51 0 c) cnt = ⟨0, 0, 0, 0, 0, 0, cnt⟩ := by
  simp [LimbSetReg.ofLimbs, digits51_getD, -List.getD_eq_getElem?_getD]

/-- A word written into a zero register stands there alone, with the word's weight (R72). -/
theorem toNat_of_withWord?_zero {j : Count} {d : Word} {v : Big} (h : withWord? 0 j d = some v) :
    v.toNat = d.toNat * 2 ^ (64 * j.toNat) := by
  simp only [withWord?, Config.LB, Config.NWORDS, Option.ite_none_right_eq_some, Option.some.injEq] at h
  obtain ⟨hj, rfl⟩ := h
  have hfits : d.toNat * 2 ^ (64 * j.toNat) < 2 ^ 320 := calc
    d.toNat * 2 ^ (64 * j.toNat) < 2 ^ 64 * 2 ^ (64 * j.toNat) := Nat.mul_lt_mul_of_pos_right d.isLt (by positivity)
    _ = 2 ^ (64 + 64 * j.toNat) := (Nat.pow_add ..).symm
    _ ≤ 2 ^ 320 := Nat.pow_le_pow_right Nat.two_pos (by omega)
  rw [BitVec.ofNat_eq_ofNat, BitVec.zero_and, BitVec.zero_or, BitVec.toNat_shiftLeft,
    BitVec.toNat_setWidth_of_le (by decide), Nat.shiftLeft_eq, Nat.mod_eq_of_lt hfits]

/-- Settles O2: the statement about each command, with zeros for what it reads and every LimbSet register empty. -/
theorem commandsOnTheResetState : Obligations.CommandsOnTheResetState := by
  refine ⟨fun ns j hj => ?rdn, fun ss i hi => ?rdl, fun ss => ?rdc, fun ss => ?valid, fun sd ss => ?norm,
    fun nd ss => ?recomp, fun sd ns cnt hcnt => ?decomp, fun sd cnt hcnt => ?mkls, fun sd => ?modp,
    fun nd j d hj => ?wrn, fun sd i d hi => ?wrl⟩
  case rdn =>
    obtain ⟨v, hexec, hv⟩ := rdnReadsOneWord.1 ns j .reset hj
    rw [reset_readN_toNat, bits64, Nat.zero_div, Nat.zero_mod] at hv
    rw [hexec, BitVec.eq_of_toNat_eq (y := 0) hv]
  case rdl =>
    obtain ⟨v, hexec, hv⟩ := rdlReadsOneSlot.1 ss i .reset hi
    rw [State.reset_readS] at hv
    cases (LimbSetReg.zero_slot? hi).symm.trans hv
    exact hexec
  case rdc => rw [exec_rdc, State.reset_readS]; rfl
  case valid => exact exec_eq_raise (e := .shape) (reset_empty ss)
  case norm => exact exec_eq_raise (e := .shape) (reset_empty ss)
  case recomp => exact exec_eq_raise (e := .shape) (reset_empty ss)
  case decomp =>
    obtain ⟨-, -, hexec⟩ | ⟨-, hge, -⟩ | ⟨hempty, -⟩ := execDecomp_cases .reset sd ns cnt
    · rw [reset_readN_toNat, ofLimbs_digits51_zero] at hexec
      exact hexec
    · rw [reset_readN_toNat] at hge
      exact absurd hge (Nat.two_pow_pos _).not_ge
    · simp [(isLs_iff cnt).mpr hcnt] at hempty
  case mkls =>
    obtain ⟨-, -, hexec⟩ | ⟨hbad, -⟩ := execMkls_cases .reset sd cnt cnt
    · rw [State.reset_readS] at hexec
      exact hexec
    · simp [(isLs_iff cnt).mpr hcnt] at hbad
  case modp => exact modpCopiesTheModulus.1 sd .reset
  case wrn =>
    obtain ⟨-, v, hv, hexec⟩ | ⟨hge, -⟩ := execWrn_cases .reset nd j d
    · rw [State.reset_readN] at hv
      exact ⟨v, toNat_of_withWord?_zero hv, hexec⟩
    · omega
  case wrl =>
    obtain ⟨-, r, hr, hexec⟩ | ⟨hge, -⟩ := execWrl_cases .reset sd i d
    · rw [State.reset_readS] at hr
      refine ⟨r, LimbSetReg.withSlot?_cnt hr, fun m hm => ?_, hexec⟩
      rw [LimbSetReg.slot?_withSlot? hr, LimbSetReg.zero_slot? hm, apply_ite some]
    · omega

/-! ## At the pins -/

section Port

variable {pins : PinsIn}

/-- In reset both handshake outputs are 0 (R140). -/
theorem Port.out_inReset (p : Port) (h : pins.rst = true) : p.out pins = ⟨false, none⟩ := by
  simp [Port.out, h]

/-- An edge in reset resets the unit, whatever was in flight (R140, R141). -/
theorem Port.edge_inReset (p : Port) (h : pins.rst = true) :
    p.edge pins = .next { p with unit := takeReset p.unit, left := 0 } := by
  simp [Port.edge, h]

/-- Out of reset a port with no command in flight is ready and offers nothing (R61, R142). -/
theorem Port.out_idle {p : Port} (h : pins.rst = false) (hr : p.unit.rsp = none) : p.out pins = ⟨true, none⟩ := by
  simp [Port.out, h, hr]

end Port

/-- Settles O54: the edge in reset leaves the reset registers and no command in flight. -/
theorem portReset : Obligations.PortReset := fun p _ _ hrst hrst' =>
  ⟨p.out_inReset hrst, _, p.edge_inReset hrst, takeReset_arch p.unit, Port.out_idle hrst' (takeReset_rsp p.unit)⟩

end Sys2Proof.Machine
end

section
/-! PROOFS. The count fields (R24): which commands write one and what, and so what every step keeps. -/

namespace Sys2Proof.Machine

variable {s t : State} {r : SReg}

/-! ## The writers of a count field -/

/-- R28's column for the count fields, read by place: the four commands that may write the count of a register. -/
theorem placesWritten_count_iff {i : Instr} : placesWritten i (.count r) = true ↔
    (∃ w c, i = .mkls r w c) ∨ (∃ ns c, i = .decomp r ns c) ∨ (∃ ss, i = .norm r ss) ∨ i = .modp r := by
  cases i <;> simp [placesWritten, @eq_comm _ r]

@[simp] theorem normalized_cnt (q : LimbSetReg) : (normalized q).cnt = 5 := rfl

/-- Settles O6: a command that may not write the count leaves it, by the frame; each of the four that may either raises
an error, which leaves it too, or writes it as R24 says. -/
theorem countFieldWriters : Obligations.CountFieldWriters := by
  intro i s t r h hne
  have hwrites : placesWritten i (.count r) = true := by
    by_contra hp
    exact hne (cnt_eq_of_at? (exec_at?_of_not_written h (Bool.eq_false_of_not_eq_true hp)))
  obtain ⟨w, c, rfl⟩ | ⟨ns, c, rfl⟩ | ⟨ss, rfl⟩ | rfl := placesWritten_count_iff.mp hwrites
  · obtain ⟨-, hc, e⟩ | ⟨-, e⟩ := execMkls_cases s r w c <;> cases e.symm.trans h
    · refine .inr ⟨?_, .inl ⟨w, c, rfl⟩⟩
      simpa [State.readS_arch] using (isLs_iff c).mp hc
    · exact absurd rfl hne
  · obtain ⟨hc, -, e⟩ | ⟨-, -, e⟩ | ⟨-, e⟩ := execDecomp_cases s r ns c <;> cases e.symm.trans h
    · refine .inr ⟨?_, .inr ⟨ns, c, rfl⟩⟩
      simpa [State.readS_arch] using (isLs_iff c).mp hc
    · exact absurd rfl hne
    · exact absurd rfl hne
  · obtain ⟨-, e⟩ | ⟨-, e⟩ := execNorm_cases s r ss <;> cases e.symm.trans h
    · exact .inl ⟨by simp [State.readS_arch], .inl ⟨ss, rfl⟩⟩
    · exact absurd rfl hne
  · cases (exec_modp r s).symm.trans h
    exact .inl ⟨by rw [State.loadS_readS, LimbSetReg.ofLimbs_cnt], .inr rfl⟩

/-! ## What a step keeps -/

/-- A step that takes a command leaves a count field as it was or legal. -/
theorem step_command_cnt {cmd : Command} {rest : List HostInput} (hinput : s.input = .command cmd :: rest)
    (hstep : step s = .next t) : (t.readS r).cnt = (s.readS r).cnt ∨ (t.readS r).cnt = 5 ∨ (t.readS r).cnt = 6 := by
  cases hd : decode cmd with
  | legal i =>
    refine or_iff_not_imp_left.mpr fun hne => ?_
    obtain ⟨h5, -⟩ | ⟨h56, -⟩ := countFieldWriters i _ t r ((step_legal hinput hd).symm.trans hstep) hne
    · exact .inl h5
    · exact h56
  | illegal why =>
    cases (step_illegal hinput hd).symm.trans hstep
    exact .inl rfl

/-- Settles O4: reset leaves every count 0. -/
theorem countInvariantAtReset : Obligations.CountInvariantAtReset := by
  intro r
  rw [State.reset_readS]
  decide

/-- Settles O5: an idle step repeats the state, a reset leaves every count 0, and a command leaves a count as it was or
legal. -/
theorem countInvariantKeptByStep : Obligations.CountInvariantKeptByStep := by
  intro s t hinv hstep
  match hinput : s.input with
  | [] =>
    cases (step_idle hinput).symm.trans hstep
    exact hinv
  | .reset :: rest =>
    cases (step_reset hinput).symm.trans hstep
    exact countInvariantAtReset
  | .command cmd :: rest =>
    intro r
    obtain hsame | hlegal := step_command_cnt (r := r) hinput hstep
    · rw [hsame]
      exact hinv r
    · exact (countOk_iff _).mpr (.inr hlegal)

/-- Settles O7: a count that a command leaves as it was stays legal, and any other it leaves legal. -/
theorem limbSetRegistersStayConstructed : Obligations.LimbSetRegistersStayConstructed := by
  intro s t r cmd rest hinput hstep hlegal
  obtain hsame | hnew := step_command_cnt (r := r) hinput hstep
  · rwa [hsame]
  · exact hnew

end Sys2Proof.Machine
end

section
/-! PROOFS. The decoder and the encoder are inverse to each other (R62, R64), and R65's examples. -/

namespace Sys2Proof

/-- Settles O8: the encoder's word has the opcode of its own clause of `decode_mkCw`, the unused fields zero and the
register's own number. -/
theorem decodeInvertsEncode : Obligations.DecodeInvertsEncode := by
  intro i hwf
  cases i with
  | wrn nd j d => simpa [encode, decode_mkCw] using Nat.le_of_lt_succ (of_decide_eq_true hwf)
  | rdn ns j => simpa [encode, decode_mkCw] using Nat.le_of_lt_succ (of_decide_eq_true hwf)
  | wrl sd j d => simpa [encode, decode_mkCw] using Nat.le_of_lt_succ (of_decide_eq_true hwf)
  | rdl ss j => simpa [encode, decode_mkCw] using Nat.le_of_lt_succ (of_decide_eq_true hwf)
  | mkls sd w c => simp [encode, decode_mkCw]
  | rdc ss => simp [encode, decode_mkCw]
  | valid ss => simp [encode, decode_mkCw]
  | decomp sd ns c => simp [encode, decode_mkCw]
  | norm sd ss => simp [encode, decode_mkCw]
  | recomp nd ss => simp [encode, decode_mkCw]
  | modp sd => simp [encode, decode_mkCw]

/-- Encoding what a command decodes to gives its word back, with the write data for WRN and WRL and 0 for the others. -/
theorem encode_of_decode {cmd : Command} {i : Instr} (h : decode cmd = .legal i) : (encode i).cw = cmd.cw ∧
    ((∃ nd j d, i = .wrn nd j d) ∨ (∃ sd j d, i = .wrl sd j d) → (encode i).wdata = cmd.wdata) := by
  obtain ⟨cw, d⟩ := cmd
  rw [← mkCw_fields cw] at h ⊢
  obtain ⟨hz, h⟩ := (decode_mkCw ..).mp h
  rw [hz]
  obtain ⟨hop, hrs, hc, -, rfl⟩ | ⟨hop, hrd, hc, -, rfl⟩ | ⟨hop, hrs, hc, -, rfl⟩ | ⟨hop, hrd, hc, -, rfl⟩ |
    ⟨hop, hrs, rfl⟩ | ⟨hop, hrd, hk, hc, rfl⟩ | ⟨hop, hrd, hk, hc, rfl⟩ | ⟨hop, hk, rfl⟩ | ⟨hop, hk, hc, rfl⟩ |
    ⟨hop, hk, hc, rfl⟩ | ⟨hop, hrs, hk, hc, rfl⟩ := h
  all_goals simp [encode, *]

/-- Settles O9: in each clause of `decode_mkCw` the fields are those the encoder puts together. -/
theorem encodeInvertsDecode : Obligations.EncodeInvertsDecode :=
  fun _ _ h => ⟨wellFormed_of_decode h, encode_of_decode h⟩

/-- Settles O12: the decoder and the writer run on the eleven words R65 prints. -/
theorem assemblerExamplesDecode : Obligations.AssemblerExamplesDecode := by
  unfold Obligations.AssemblerExamplesDecode
  decide

end Sys2Proof
end

section
/-! PROOFS. One step: it always goes on (R32), it runs the word a host has placed, and a failed command sent again fails
again (R127). The status codes (R120). -/

namespace Sys2Proof.Machine

/-- Settles O19: an idle step, a reset and an illegal word have their next state by definition, and every instruction
answers one. -/
theorem stepAlwaysAnswersNext : Obligations.StepAlwaysAnswersNext := by
  intro s
  obtain ⟨-, h⟩ | ⟨rest, -, h⟩ | ⟨cmd, rest, i, -, -, h⟩ | ⟨cmd, rest, why, -, -, h⟩ := step_cases s
  · exact ⟨_, h⟩
  · exact ⟨_, h⟩
  · obtain ⟨a, r, hexec⟩ := exec_next { s with input := rest } i
    exact ⟨_, h.trans hexec⟩
  · exact ⟨_, h⟩

/-- Settles O15: the placed command is the first input, and taking it off leaves the state it was placed on. -/
theorem fetchedWordRuns : Obligations.FetchedWordRuns := by
  intro s nbits w i h
  exact step_legal (s := s.withFetchWord nbits w) rfl ((instr_eq_some _ i).mp h)

/-- Settles O23: the failed command left only its response, so presenting it again gives the state before but for a
response at which the step does not look. -/
theorem resendingAFailedCommandFailsAgain : Obligations.ResendingAFailedCommandFailsAgain := by
  intro s t cmd rest r hinput hstep hr hne
  have hagain : t.present cmd = { s with rsp := some ⟨r.status, 0⟩ } := by
    rw [errorWritesNothing s t cmd rest r hinput hstep hr hne, State.present, ← hinput]
  rw [hagain, step_rsp hinput, hstep]

theorem Status.code_inj {st st' : Status} : st.code = st'.code ↔ st = st' := by
  cases st <;> cases st' <;> decide

/-- Settles O18: each of the four codes is the code of a status, and no two statuses share one. -/
theorem statusCodes : Obligations.StatusCodes := by
  refine ⟨rfl, rfl, rfl, rfl, fun code => ?_⟩
  obtain ⟨st, rfl⟩ : ∃ st : Status, st.code = code := by
    obtain rfl | rfl | rfl | rfl : code = 0 ∨ code = 1 ∨ code = 2 ∨ code = 3 := by revert code; decide
    · exact ⟨.ok, rfl⟩
    · exact ⟨.shapeError, rfl⟩
    · exact ⟨.rangeError, rfl⟩
    · exact ⟨.illegalCommand, rfl⟩
  exact ⟨st, rfl, fun st' h => Status.code_inj.mp h⟩

end Sys2Proof.Machine
end

section
/-! PROOFS. The commands that load a whole register, and VALID: the one next state each answers when it succeeds, and
what the registers hold after a load. -/

namespace Sys2Proof.Machine

variable {s : State}

/-! ## Registers after a load -/

theorem State.loadN_readN (s : State) (r : NReg) (v : Big) : (s.loadN r v).readN r = v := by
  rw [State.readN_arch, State.loadN, Arch.readN_writeN, if_pos rfl]

theorem State.loadS_readS_ne (s : State) {q r : SReg} (v : LimbSetReg) (h : q ≠ r) :
    (s.loadS r v).readS q = s.readS q := by
  rw [State.readS_arch, State.loadS, Arch.readS_writeS, if_neg h, State.readS_arch]

theorem State.loadN_readS (s : State) (r : NReg) (v : Big) (q : SReg) : (s.loadN r v).readS q = s.readS q := by
  rw [State.readS_arch, State.loadN, Arch.readS_writeN, State.readS_arch]

theorem State.loadN_readN_ne (s : State) {q r : NReg} (v : Big) (h : q ≠ r) :
    (s.loadN r v).readN q = s.readN q := by
  rw [State.readN_arch, State.loadN, Arch.readN_writeN, if_neg h, State.readN_arch]

/-! ## The commands -/

theorem exec_mkls_of_isLs (sd : SReg) {c : Count} (hc : isLs c = true) :
    exec (.mkls sd c c) s = .next (s.loadS sd { s.readS sd with cnt := c }) := by
  obtain ⟨-, -, h⟩ | ⟨hbad, -⟩ := execMkls_cases s sd c c
  · exact h
  · simp [hc] at hbad

theorem exec_decomp_loadS (sd : SReg) {ns : NReg} {c : Count} (hc : isLs c = true)
    (hlt : (s.readN ns).toNat < 2 ^ (51 * c.toNat)) : exec (.decomp sd ns c) s =
      .next (s.loadS sd (.ofLimbs (digits51 (s.readN ns).toNat c.toNat) c)) := by
  obtain ⟨-, -, h⟩ | ⟨-, hge, -⟩ | ⟨hempty, -⟩ := execDecomp_cases s sd ns c
  · exact h
  · exact absurd hlt hge.not_gt
  · simp [hc] at hempty

theorem exec_recomp_loadN (nd : NReg) {ss : SReg} (hc : isLs (s.readS ss).cnt = true) :
    exec (.recomp nd ss) s = .next (s.loadN nd (BitVec.ofNat 320 (s.readS ss).value)) := by
  obtain ⟨-, h⟩ | ⟨hempty, -⟩ := execRecomp_cases s nd ss
  · exact h
  · simp [hc] at hempty

theorem exec_valid_of_validate {ss : SReg} (hc : isLs (s.readS ss).cnt = true) (hv : (s.readS ss).validate = true) :
    exec (.valid ss) s = .next { s with rsp := some ⟨.ok, 1⟩ } := by
  obtain ⟨-, h⟩ | ⟨hempty, -⟩ := execValid_cases s ss
  · rw [hv] at h
    exact h
  · simp [hc] at hempty

end Sys2Proof.Machine
end

section
/-! PROOFS. R28's matrix: the frame of every command, and that its result depends on nothing but what it reads. -/

namespace Sys2Proof.Machine

/-- Settles O25: a command ends in a state with the host's stream as it was, and by the frame of each instruction with
every place it does not write as it was. -/
theorem frameOutsideWrittenPlaces : Obligations.FrameOutsideWrittenPlaces := by
  intro i s t h
  refine ⟨?_, fun p hp => exec_at?_of_not_written h hp⟩
  obtain ⟨a, r, hexec⟩ := exec_next s i
  cases hexec.symm.trans h
  rfl

/-! ## Results on two states -/

/-- On both states the command gives one response and, where that is OK, the same content of every place it writes. -/
def ResultsAgree (i : Instr) (s s' : State) : Prop :=
  ∀ t t', exec i s = .next t → exec i s' = .next t' →
    t.rsp = t'.rsp ∧ ∀ d, t.rsp = some ⟨.ok, d⟩ → ∀ p, placesWritten i p = true → t.arch.at? p = t'.arch.at? p

variable {i : Instr} {s s' u u' : State}

theorem resultsAgree_of_raise {e : CmdError} (h : exec i s = raise e s) (h' : exec i s' = raise e s') :
    ResultsAgree i s s' := by
  intro t t' ht ht'
  cases h.symm.trans ht
  cases h'.symm.trans ht'
  refine ⟨rfl, fun d hd => ?_⟩
  exact absurd (congrArg Response.status (Option.some.inj hd)) e.status_ne_ok

theorem resultsAgree_of_done (h : exec i s = done u) (h' : exec i s' = done u')
    (hu : ∀ p, placesWritten i p = true → u.arch.at? p = u'.arch.at? p) : ResultsAgree i s s' := by
  intro t t' ht ht'
  cases h.symm.trans ht
  cases h'.symm.trans ht'
  exact ⟨rfl, fun d _ => hu⟩

/-- A command that loads one LimbSet register with the same on both states. -/
theorem resultsAgree_of_loadS {sd : SReg} {v : LimbSetReg} (h : exec i s = .next (s.loadS sd v))
    (h' : exec i s' = .next (s'.loadS sd v))
    (hw : ∀ p, placesWritten i p = true → (∃ j, p = .slot sd j) ∨ p = .count sd) : ResultsAgree i s s' := by
  refine resultsAgree_of_done (u := s.writeS sd v) (u' := s'.writeS sd v) h h' fun p hp => ?_
  obtain ⟨j, rfl⟩ | rfl := hw p hp <;> simp [Arch.at?]

/-- A command that loads one integer register with the same on both states. -/
theorem resultsAgree_of_loadN {nd : NReg} {v : Big} (h : exec i s = .next (s.loadN nd v))
    (h' : exec i s' = .next (s'.loadN nd v)) (hw : ∀ p, placesWritten i p = true → ∃ j, p = .word nd j) :
    ResultsAgree i s s' := by
  refine resultsAgree_of_done (u := s.writeN nd v) (u' := s'.writeN nd v) h h' fun p hp => ?_
  obtain ⟨j, rfl⟩ := hw p hp
  simp [Arch.at?]

/-- A read writes no place, so its response is its whole result. -/
theorem read_resultsAgree (hi : Instr.IsRead i)
    (h : ∀ p, placesRead i s.arch p = true → s.arch.at? p = s'.arch.at? p) : ResultsAgree i s s' := by
  obtain ⟨r, hs, hs'⟩ := read_answersAlike hi fun p hp => (h p hp).symm
  intro t t' ht ht'
  cases hs.symm.trans ht
  cases hs'.symm.trans ht'
  refine ⟨rfl, fun d _ p hp => ?_⟩
  obtain ⟨ns, j, rfl⟩ | ⟨ss, j, rfl⟩ | ⟨ss, rfl⟩ | ⟨ss, rfl⟩ := hi <;> cases p <;> cases hp

/-! ## What the places read determine -/

/-- States that agree on the limbs of a LimbSet register and their number, place by place, agree on both. -/
theorem limbs_eq_of_at? {ss : SReg} (hc : s.arch.at? (.count ss) = s'.arch.at? (.count ss))
    (hl : ∀ j : Count, j.toNat < (s.readS ss).cnt.toNat → s.arch.at? (.slot ss j) = s'.arch.at? (.slot ss j)) :
    (s'.readS ss).cnt = (s.readS ss).cnt ∧ (s'.readS ss).limbs = (s.readS ss).limbs := by
  have hcnt := cnt_eq_of_at? hc.symm
  exact ⟨hcnt, LimbSetReg.limbs_eq_of_slots hcnt fun j hj => slot?_eq_of_at? (hl j hj).symm⟩

/-- NORM starts from the limbs alone. -/
theorem Work.load_congr {q r : LimbSetReg} (h : isLs r.cnt = true) (hc : q.cnt = r.cnt) (hl : q.limbs = r.limbs) :
    Work.load q = Work.load r := by
  obtain h5 | h6 := (isLs_iff _).mp h
  · rw [LimbSetReg.limbs_five h5, LimbSetReg.limbs_five (hc.trans h5)] at hl
    simp_all [Work.load]
  · rw [LimbSetReg.limbs_six h6, LimbSetReg.limbs_six (hc.trans h6)] at hl
    simp_all [Work.load]

/-! ## Each command that writes -/

theorem wrn_resultsAgree (nd : NReg) (j : Count) (d : Word) : ResultsAgree (.wrn nd j d) s s' := by
  obtain ⟨hj, v, hv, h⟩ | ⟨hj, h⟩ := execWrn_cases s nd j d <;>
    obtain ⟨hj', v', hv', h'⟩ | ⟨hj', h'⟩ := execWrn_cases s' nd j d
  · refine resultsAgree_of_done h h' fun p hp => ?_
    obtain rfl := eq_of_beq hp
    simp [Arch.at?, wordOf?_withWord?_same hv, wordOf?_withWord?_same hv']
  · omega
  · omega
  · exact resultsAgree_of_raise h h'

theorem wrl_resultsAgree (sd : SReg) (j : Count) (d : Word) : ResultsAgree (.wrl sd j d) s s' := by
  obtain ⟨hj, v, hv, h⟩ | ⟨hj, h⟩ := execWrl_cases s sd j d <;>
    obtain ⟨hj', v', hv', h'⟩ | ⟨hj', h'⟩ := execWrl_cases s' sd j d
  · refine resultsAgree_of_done h h' fun p hp => ?_
    obtain rfl := eq_of_beq hp
    simp [Arch.at?, LimbSetReg.slot?_withSlot? hv, LimbSetReg.slot?_withSlot? hv']
  · omega
  · omega
  · exact resultsAgree_of_raise h h'

theorem mkls_resultsAgree (sd : SReg) (w c : Count) : ResultsAgree (.mkls sd w c) s s' := by
  obtain ⟨rfl, hc, h⟩ | ⟨hbad, h⟩ := execMkls_cases s sd w c
  · refine resultsAgree_of_done (u' := s'.writeS sd { s'.readS sd with cnt := w }) h (exec_mkls_of_isLs sd hc)
      fun p hp => ?_
    obtain rfl := eq_of_beq hp
    simp [Arch.at?]
  · refine resultsAgree_of_raise h ((execMkls_cases s' sd w c).resolve_left fun ⟨hw, hc, _⟩ => ?_).2
    simp [hw, hc] at hbad

theorem decomp_resultsAgree (sd : SReg) {ns : NReg} (c : Count) (hn : s'.readN ns = s.readN ns) :
    ResultsAgree (.decomp sd ns c) s s' := by
  obtain ⟨hc, hlt, -⟩ | ⟨hc, hge, h⟩ | ⟨hempty, h⟩ := execDecomp_cases s sd ns c
  · have h' := exec_decomp_loadS (s := s') sd hc (hn ▸ hlt)
    rw [hn] at h'
    exact resultsAgree_of_loadS (exec_decomp_loadS sd hc hlt) h' fun p hp => by cases p <;> simp_all [placesWritten]
  · exact resultsAgree_of_raise h (exec_eq_raise (e := .range) ⟨(isLs_iff c).mp hc, hn ▸ hge⟩)
  · exact resultsAgree_of_raise h (exec_eq_raise (e := .shape) ((isLs_false_iff c).mp hempty))

theorem norm_resultsAgree (sd : SReg) {ss : SReg} (hcnt : (s'.readS ss).cnt = (s.readS ss).cnt)
    (hl : (s'.readS ss).limbs = (s.readS ss).limbs) : ResultsAgree (.norm sd ss) s s' := by
  obtain ⟨hc, h⟩ | ⟨hempty, h⟩ := execNorm_cases s sd ss
  · have h' := exec_norm_loadS (s := s') sd (hcnt ▸ hc)
    rw [normalized, Work.load_congr hc hcnt hl, ← normalized] at h'
    exact resultsAgree_of_loadS h h' fun p hp => by cases p <;> simp_all [placesWritten]
  · exact resultsAgree_of_raise h (exec_eq_raise (e := .shape) ((isLs_false_iff _).mp (hcnt ▸ hempty)))

theorem recomp_resultsAgree (nd : NReg) {ss : SReg} (hcnt : (s'.readS ss).cnt = (s.readS ss).cnt)
    (hl : (s'.readS ss).limbs = (s.readS ss).limbs) : ResultsAgree (.recomp nd ss) s s' := by
  obtain ⟨hc, h⟩ | ⟨hempty, h⟩ := execRecomp_cases s nd ss
  · have h' := exec_recomp_loadN (s := s') nd (hcnt ▸ hc)
    rw [LimbSetReg.value, hl, ← LimbSetReg.value] at h'
    exact resultsAgree_of_loadN h h' fun p hp => by cases p <;> simp_all [placesWritten]
  · exact resultsAgree_of_raise h (exec_eq_raise (e := .shape) ((isLs_false_iff _).mp (hcnt ▸ hempty)))

theorem modp_resultsAgree (sd : SReg) : ResultsAgree (.modp sd) s s' :=
  resultsAgree_of_loadS (exec_modp sd s) (exec_modp sd s') fun p hp => by cases p <;> simp_all [placesWritten]

/-- Settles O26: the words of an integer register determine it, and the count and the slots below it determine the
LimbSet; a command that writes computes its result from these and its operands. -/
theorem resultsDependOnlyOnPlacesRead : Obligations.ResultsDependOnlyOnPlacesRead := by
  intro i s s' t t' h
  suffices ResultsAgree i s s' from this t t'
  cases i with
  | wrn nd j d => exact wrn_resultsAgree nd j d
  | wrl sd j d => exact wrl_resultsAgree sd j d
  | mkls sd w c => exact mkls_resultsAgree sd w c
  | modp sd => exact modp_resultsAgree sd
  | decomp sd ns c =>
    exact decomp_resultsAgree sd c (eq_of_words fun j => wordOf?_eq_of_at? (h (.word ns j) (beq_self_eq_true _)).symm)
  | norm sd ss =>
    obtain ⟨hc, hl⟩ := limbs_eq_of_at? (h (.count ss) (beq_self_eq_true _)) fun j hj => h (.slot ss j) (by
      simpa [placesRead, State.readS_arch] using hj)
    exact norm_resultsAgree sd hc hl
  | recomp nd ss =>
    obtain ⟨hc, hl⟩ := limbs_eq_of_at? (h (.count ss) (beq_self_eq_true _)) fun j hj => h (.slot ss j) (by
      simpa [placesRead, State.readS_arch] using hj)
    exact recomp_resultsAgree nd hc hl
  | rdn ns j => exact read_resultsAgree (.inl ⟨ns, j, rfl⟩) h
  | rdl ss j => exact read_resultsAgree (.inr (.inl ⟨ss, j, rfl⟩)) h
  | rdc ss => exact read_resultsAgree (.inr (.inr (.inl ⟨ss, rfl⟩))) h
  | valid ss => exact read_resultsAgree (.inr (.inr (.inr ⟨ss, rfl⟩))) h

end Sys2Proof.Machine
end

section
/-! PROOFS. Reads after writes (R49): commands that do not write a place leave it, and a read answers what stands
there. -/

namespace Sys2Proof.Machine

variable {s t u : State} {between : List Instr}

/-! ## A read answers what stands in its place -/

theorem exec_rdn_of_wordOf? {r : NReg} {j : Count} {d : Word} (h : wordOf? (t.readN r) j = some d) :
    exec (.rdn r j) t = .next { t with rsp := some ⟨.ok, d⟩ } := by
  simp only [exec, execRdn, h, respond_eq]

theorem exec_rdl_of_slot? {r : SReg} {i : Count} {d : Word} (h : (t.readS r).slot? i = some d) :
    exec (.rdl r i) t = .next { t with rsp := some ⟨.ok, d⟩ } := by
  simp only [exec, execRdl, h, respond_eq]

/-- The read data RDC gives for a legal count. -/
theorem setWidth_of_legal {c : Count} (h : c = 5 ∨ c = 6) : c.setWidth 64 = if c = 5 then (5 : Word) else 6 := by
  obtain rfl | rfl := h <;> rfl

/-- The limbs of p fit their slots. -/
theorem pLimbs_getD_lt (i : Nat) : pLimbs.getD i 0 < 2 ^ 64 := by
  obtain hi | hi := Nat.lt_or_ge i 5
  · interval_cases i <;> decide
  · rw [List.getD_eq_default _ _ hi]
    decide

/-! ## Commands in between -/

/-- Commands none of which writes a place leave it, all together. -/
theorem execAll_at? {p : Place} (h : noneWrites between p) (hexec : execAll between s = .next t) :
    t.arch.at? p = s.arch.at? p := by
  induction between generalizing s with
  | nil =>
    cases hexec
    rfl
  | cons i is ih =>
    obtain ⟨a, r, hi⟩ := exec_next s i
    rw [execAll_cons hi] at hexec
    exact (ih (fun k hk => h k (.tail i hk)) hexec).trans (exec_at?_of_not_written hi (h i (.head is)))

theorem execAll_wordOf? {r : NReg} {j : Count} (h : noneWrites between (.word r j))
    (hexec : execAll between s = .next t) : wordOf? (t.readN r) j = wordOf? (s.readN r) j :=
  wordOf?_eq_of_at? (execAll_at? h hexec)

theorem execAll_slot? {r : SReg} {i : Count} (h : noneWrites between (.slot r i))
    (hexec : execAll between s = .next t) : (t.readS r).slot? i = (s.readS r).slot? i :=
  slot?_eq_of_at? (execAll_at? h hexec)

theorem execAll_cnt {r : SReg} (h : noneWrites between (.count r)) (hexec : execAll between s = .next t) :
    (t.readS r).cnt = (s.readS r).cnt :=
  cnt_eq_of_at? (execAll_at? h hexec)

/-! ## What was there before the commands in between -/

/-- RDN after commands that do not write the word. -/
theorem exec_rdn_execAll {r : NReg} {j : Count} (hj : j.toNat ≤ 4) (h : noneWrites between (.word r j))
    (hexec : execAll between s = .next t) :
    ∃ d, d.toNat = bits64 (s.readN r).toNat j.toNat ∧ exec (.rdn r j) t = .next { t with rsp := some ⟨.ok, d⟩ } := by
  obtain ⟨d, hread, hd⟩ := rdnReadsOneWord.1 r j t hj
  exact ⟨d, hd.trans (bits64_congr hj (execAll_wordOf? h hexec)), hread⟩

/-- RDL after commands that do not write the slot. -/
theorem exec_rdl_execAll {r : SReg} {i : Count} (hi : i.toNat ≤ 5) (h : noneWrites between (.slot r i))
    (hexec : execAll between s = .next t) :
    ∃ d, (s.readS r).slot? i = some d ∧ exec (.rdl r i) t = .next { t with rsp := some ⟨.ok, d⟩ } := by
  obtain ⟨d, hread, hd⟩ := rdlReadsOneSlot.1 r i t hi
  exact ⟨d, (execAll_slot? h hexec).symm.trans hd, hread⟩

/-- RDC after commands that do not write the count. -/
theorem exec_rdc_execAll {r : SReg} (h : noneWrites between (.count r)) (hexec : execAll between s = .next t) :
    exec (.rdc r) t = .next { t with rsp := some ⟨.ok, (s.readS r).cnt.setWidth 64⟩ } := by
  rw [exec_rdc, execAll_cnt h hexec]

/-- The two reads of a LimbSet register after a command that loaded it, from what it loaded. -/
theorem reads_execAll_loadS {sd : SReg} {v : LimbSetReg} (hexec : execAll between (s.loadS sd v) = .next t) :
    (noneWrites between (.count sd) → exec (.rdc sd) t = .next { t with rsp := some ⟨.ok, v.cnt.setWidth 64⟩ }) ∧
    ∀ i, i.toNat ≤ 5 → noneWrites between (.slot sd i) →
      ∃ d, v.slot? i = some d ∧ exec (.rdl sd i) t = .next { t with rsp := some ⟨.ok, d⟩ } := by
  refine ⟨fun h => ?_, fun i hi h => ?_⟩
  · have hread := exec_rdc_execAll h hexec
    rwa [State.loadS_readS] at hread
  · have hread := exec_rdl_execAll hi h hexec
    rwa [State.loadS_readS] at hread

/-- Settles O29: the write leaves its value in the place, the commands in between leave the place, and the read answers
what stands there. -/
theorem readReturnsTheLastWrite : Obligations.ReadReturnsTheLastWrite := by
  refine ⟨fun r j between s t hj h hexec => exec_rdn_execAll hj h hexec,
    fun r i between s t hi h hexec => exec_rdl_execAll hi h hexec, fun r between s t h hexec => ?count,
    fun nd j d between s t hj h hexec => ?wrn, fun sd i d between s t hi h hexec => ?wrl,
    fun sd cnt between s t hcnt h hexec => ?mkls, fun nd ss j between s t hcnt hj h hexec => ?recomp,
    fun sd ns cnt between s t hcnt hlt hexec => ?decomp, fun sd ss between s u t hcnt hnorm hexec => ?norm,
    fun sd between s t hexec => ?modp⟩
  case count => exact ⟨_, BitVec.toNat_setWidth_of_le (by decide), exec_rdc_execAll h hexec⟩
  case wrn =>
    obtain ⟨-, v, hv, hwrite⟩ | ⟨hge, -⟩ := execWrn_cases s nd j d
    · rw [execAll_cons (i := .wrn nd j d) (t := s.loadN nd v) hwrite] at hexec
      have hword := execAll_wordOf? h hexec
      rw [State.loadN_readN, wordOf?_withWord?_same hv] at hword
      exact exec_rdn_of_wordOf? hword
    · omega
  case wrl =>
    obtain ⟨-, v, hv, hwrite⟩ | ⟨hge, -⟩ := execWrl_cases s sd i d
    · rw [execAll_cons (i := .wrl sd i d) (t := s.loadS sd v) hwrite] at hexec
      have hslot := execAll_slot? h hexec
      rw [State.loadS_readS, LimbSetReg.slot?_withSlot? hv, if_pos rfl] at hslot
      exact exec_rdl_of_slot? hslot
    · omega
  case mkls =>
    rw [execAll_cons (exec_mkls_of_isLs sd ((isLs_iff cnt).mpr hcnt))] at hexec
    rw [(reads_execAll_loadS hexec).1 h, setWidth_of_legal hcnt]
  case recomp =>
    have hls := (isLs_iff _).mpr hcnt
    rw [execAll_cons (exec_recomp_loadN nd hls)] at hexec
    obtain ⟨d, hd, hread⟩ := exec_rdn_execAll hj h hexec
    rw [State.loadN_readN, toNat_ofNat_value hls] at hd
    exact ⟨d, hd, hread⟩
  case decomp =>
    rw [execAll_cons (exec_decomp_loadS sd ((isLs_iff cnt).mpr hcnt) hlt)] at hexec
    obtain ⟨hcount, hslot⟩ := reads_execAll_loadS hexec
    refine ⟨fun h => by rw [hcount h, LimbSetReg.ofLimbs_cnt, setWidth_of_legal hcnt], fun i hi h => ?_⟩
    obtain ⟨d, hd, hread⟩ := hslot i hi h
    have hdigit := slot?_ofLimbs_digits51 (s.readN ns).toNat cnt.toNat cnt hi
    rw [hd] at hdigit
    exact ⟨d, Option.some.inj hdigit, hread⟩
  case norm =>
    cases (exec_norm_loadS sd ((isLs_iff _).mpr hcnt)).symm.trans hnorm
    rw [State.loadS_readS]
    exact reads_execAll_loadS hexec
  case modp =>
    rw [execAll_cons (exec_modp sd s)] at hexec
    obtain ⟨hcount, hslot⟩ := reads_execAll_loadS hexec
    refine ⟨hcount, fun i hi h => ?_⟩
    obtain ⟨d, hd, hread⟩ := hslot i hi h
    rw [LimbSetReg.slot?_ofLimbs _ _ hi] at hd
    refine ⟨d, ?_, hread⟩
    rw [← Option.some.inj hd, BitVec.toNat_ofNat, Nat.mod_eq_of_lt (pLimbs_getD_lt i.toNat)]

end Sys2Proof.Machine
end

section
/-! PROOFS. Values of LimbSet registers (R11): the largest one, and valid sets as digits of theirs (R83, R91). -/

namespace Sys2Proof.Machine

/-! ## The largest value -/

/-- Limbs left out take nothing but their own weight off the sum. -/
theorem valueFrom_take_le (ls : List Word) (i n : Nat) : valueFrom i (ls.take n) ≤ valueFrom i ls := by
  induction ls generalizing i n with
  | nil => rw [List.take_nil]
  | cons l ls ih =>
    cases n with
    | zero => exact Nat.zero_le _
    | succ n => exact Nat.add_le_add_left (ih (i + 1) n) _

/-- Whatever the count, a register's value is at most the weighted sum of its six slots. -/
theorem LimbSetReg.value_le_all_slots (r : LimbSetReg) : r.value ≤ r.l0.toNat + r.l1.toNat * 2 ^ 51 +
    r.l2.toNat * 2 ^ 102 + r.l3.toNat * 2 ^ 153 + r.l4.toNat * 2 ^ 204 + r.l5.toNat * 2 ^ 255 :=
  calc r.value ≤ valueFrom 0 r.slots := valueFrom_take_le r.slots 0 r.cnt.toNat
    _ = ({ r with cnt := 6 } : LimbSetReg).value := rfl
    _ = _ := LimbSetReg.value_six rfl

/-- Settles O39: six slots of 2^64 − 1 have the largest weighted sum, and the rest is arithmetic on constants. -/
theorem limbSetValuesFitAnIntegerRegister : Obligations.LimbSetValuesFitAnIntegerRegister := by
  refine ⟨by decide, by decide, by decide, fun r => ?_, by decide, by decide, by decide, by decide⟩
  have h0 := r.l0.isLt; have h1 := r.l1.isLt; have h2 := r.l2.isLt
  have h3 := r.l3.isLt; have h4 := r.l4.isLt; have h5 := r.l5.isLt
  have hsum := r.value_le_all_slots
  omega

/-! ## Valid sets -/

theorem five_le_of_isLs {c : Count} (h : isLs c = true) : 5 ≤ c.toNat := by
  obtain rfl | rfl := (isLs_iff c).mp h <;> decide

/-- The limbs of a valid set are working limbs in bound. -/
theorem Work.load_inBound {r : LimbSetReg} (h : isLs r.cnt = true) (hv : r.validate = true) :
    (Work.load r).inBound = true := by
  have hlimb : ∀ (i : Count) (l : Word), i.toNat < 5 → r.slot? i = some l → l.toNat < 2 ^ 51 := fun i l hi =>
    r.validate_iff.mp hv i l (hi.trans_le (five_le_of_isLs h))
  exact (Work.inBound_iff _).mpr ⟨hlimb 0 _ (by decide) rfl, hlimb 1 _ (by decide) rfl, hlimb 2 _ (by decide) rfl,
    hlimb 3 _ (by decide) rfl, hlimb 4 _ (by decide) rfl⟩

/-- A register written from digits holds a valid set. -/
theorem validate_ofLimbs_digits51 (v : Nat) (c : Count) :
    (LimbSetReg.ofLimbs (digits51 v c.toNat) c).validate = true := by
  rw [LimbSetReg.validate_iff]
  intro i l hi hl
  have hi5 : i.toNat ≤ 5 := by simpa [hl] using LimbSetReg.slot?_isSome (.ofLimbs (digits51 v c.toNat) c) i
  have hdigit := slot?_ofLimbs_digits51 v c.toNat c hi5
  rw [LimbSetReg.ofLimbs_cnt] at hi
  rw [hl, if_pos hi] at hdigit
  rw [Option.some.inj hdigit]
  exact Nat.mod_lt _ (Nat.two_pow_pos 51)

/-- A register written from the digits of an integer in range has that value (R91). -/
theorem value_ofLimbs_digits51 {v : Nat} {c : Count} (hc : isLs c = true) (hlt : v < 2 ^ (51 * c.toNat)) :
    (LimbSetReg.ofLimbs (digits51 v c.toNat) c).value = v := by
  have hslot := fun (i : Count) (hi : i.toNat ≤ 5) => slot?_ofLimbs_digits51 v c.toNat c hi
  have h0 := Option.some.inj (hslot 0 (by decide)); have h1 := Option.some.inj (hslot 1 (by decide))
  have h2 := Option.some.inj (hslot 2 (by decide)); have h3 := Option.some.inj (hslot 3 (by decide))
  have h4 := Option.some.inj (hslot 4 (by decide)); have h5 := Option.some.inj (hslot 5 (by decide))
  obtain rfl | rfl := (isLs_iff c).mp hc
  · rw [LimbSetReg.value_five rfl, h0, h1, h2, h3, h4]
    simp at hlt ⊢
    omega
  · rw [LimbSetReg.value_six rfl, h0, h1, h2, h3, h4, h5]
    simp at hlt ⊢
    omega

/-- Settles O40: DECOMP loads the integer's digits, a valid set with the integer's value, and RECOMP writes that value,
which the integer register held already. -/
theorem decompThenRecompIsIdentity : Obligations.DecompThenRecompIsIdentity := by
  intro sd ns nd cnt s hcnt hlt
  have hls := (isLs_iff cnt).mpr hcnt
  have hvalue := value_ofLimbs_digits51 hls hlt
  have hvalid := validate_ofLimbs_digits51 (s.readN ns).toNat cnt
  refine ⟨_, _, exec_decomp_loadS sd hls hlt, ?_, ?_, exec_valid_of_validate ?_ ?_, exec_recomp_loadN nd ?_, ?_⟩ <;>
    rw [State.loadS_readS]
  · exact hvalue
  · exact hvalid
  · exact hls
  · exact hvalid
  · exact hls
  · rw [State.loadN_readN, hvalue, BitVec.ofNat_toNat, BitVec.setWidth_eq]

end Sys2Proof.Machine
end

section
/-! PROOFS. The runs of NORM's loop (R101 to R103): one carry pass settles them, they follow the closed form, at most
two folds are made, and no working limb on the way reaches 2^70. -/

namespace Sys2Proof.Machine

/-! ## One carry pass -/

/-- The inner loop stops after its first pass. -/
theorem Settles.eq_carryPass {w w' : Work} {p : Nat} (h : Settles w p w') : p = 1 ∧ w' = carryPass w := by
  cases h with
  | stable => exact ⟨rfl, rfl⟩
  | again hout => exact absurd (hout.symm.trans (carryPass_inBound w)) (by decide)

/-- Settles O43: a pass masks limbs 0 to 4, so the exit test after it holds. -/
theorem oneCarryPassIsEnough : Obligations.OneCarryPassIsEnough :=
  ⟨carryPass_inBound, fun _ _ _ h => h.eq_carryPass⟩

/-! ## The closed form -/

/-- Limb 5 is not zero after a pass exactly if the value has a part above 2^255. -/
theorem carryPass_w5_ne_zero_iff (w : Work) : (carryPass w).w5 ≠ 0 ↔ 2 ^ 255 ≤ w.value := by
  rw [carryPass_w5]
  omega

/-- V(k) of R101 after a pass and a fold is V(k + 1) before them. -/
theorem foldedValue_foldTop_carryPass (w : Work) (k : Nat) :
    foldedValue (foldTop (carryPass w)).value k = foldedValue w.value (k + 1) := by
  rw [foldedValue_succ, foldTop_carryPass_value]

/-- With K the least k for which V(k) is below 2^255, the loop makes K folds and K + 1 passes and ends with value V(K),
if it has the fuel. -/
theorem normLoop_closedForm {K n : Nat} {w : Work} (hfuel : K ≤ n)
    (hge : ∀ k, k < K → 2 ^ 255 ≤ foldedValue w.value k) (hlt : foldedValue w.value K < 2 ^ 255) :
    NormRuns w (K + 1) K (normLoop (n + 1) w) ∧ (normLoop (n + 1) w).value = foldedValue w.value K := by
  induction K generalizing n w with
  | zero =>
    have htop := carryPass_w5_of_lt hlt
    rw [normLoop_succ, if_pos htop]
    exact ⟨.leave (settles_carryPass w) htop, carryPass_value w⟩
  | succ K ih =>
    have htop := (carryPass_w5_ne_zero_iff w).mpr (hge 0 K.succ_pos)
    obtain ⟨m, rfl⟩ : ∃ m, n = m + 1 := ⟨n - 1, by omega⟩
    rw [normLoop_succ, if_neg htop]
    rw [← foldedValue_foldTop_carryPass] at hlt ⊢
    obtain ⟨hruns, hvalue⟩ := ih (Nat.le_of_succ_le_succ hfuel)
      (fun k hk => (foldedValue_foldTop_carryPass w k).symm ▸ hge (k + 1) (Nat.succ_lt_succ hk)) hlt
    rw [Nat.add_comm (K + 1) 1]
    exact ⟨.fold (settles_carryPass w) htop hruns, hvalue⟩

/-- The least number of folds that bring a LimbSet's value below 2^255 is at most two. -/
theorem exists_least_folds {v : Nat} (hv : v < 2 ^ 320) :
    ∃ K ≤ 2, (∀ k, k < K → 2 ^ 255 ≤ foldedValue v k) ∧ foldedValue v K < 2 ^ 255 := by
  have hex : ∃ k, foldedValue v k < 2 ^ 255 := ⟨2, foldedValue_two_lt hv⟩
  exact ⟨Nat.find hex, Nat.find_min' hex (foldedValue_two_lt hv), fun k hk => Nat.le_of_not_lt (Nat.find_min hex hk),
    Nat.find_spec hex⟩

/-- Slot i of a register stored from working limbs in bound is the i-th digit of their value. -/
theorem Work.store_slot? {w : Work} (h : w.inBound = true) {i : Count} (hi : i.toNat ≤ 4) :
    (w.store.slot? i).map BitVec.toNat = some (w.value / 2 ^ (51 * i.toNat) % 2 ^ 51) := by
  obtain ⟨s0, s1, s2, s3, s4, -, -⟩ := Work.store_fields h
  obtain ⟨d0, d1, d2, d3, d4, -⟩ := Work.digits_of_inBound h
  obtain rfl | rfl | rfl | rfl | rfl : i = 0 ∨ i = 1 ∨ i = 2 ∨ i = 3 ∨ i = 4 := by revert i; decide
  · exact congrArg some (s0.trans (d0.trans (by simp)))
  · exact congrArg some (s1.trans d1)
  · exact congrArg some (s2.trans d2)
  · exact congrArg some (s3.trans d3)
  · exact congrArg some (s4.trans d4)

/-- Settles O42: K is the least number of folds, the loop makes them, and the limbs it ends with are the digits of its
value. -/
theorem normEqualsClosedForm : Obligations.NormEqualsClosedForm := by
  intro sd ss s hcnt
  have hls := (isLs_iff _).mpr hcnt
  obtain ⟨K, hK, hge, hlt⟩ := exists_least_folds (LimbSetReg.value_lt hls)
  have hload := Work.load_value hls
  obtain ⟨hruns, hvalue⟩ := normLoop_closedForm (w := .load (s.readS ss)) hK (by rwa [hload]) (by rwa [hload])
  rw [hload] at hvalue
  obtain ⟨hin, -⟩ := hruns.inBound_w5
  refine ⟨K, _, _, hge, hlt, exec_norm_loadS sd hls, fun i hi => ?_, rfl, rfl, hruns⟩
  rw [← hvalue]
  exact Work.store_slot? hin hi

/-! ## The number of passes -/

/-- A run makes one pass more than folds, and folds only what is 2^255 or more. -/
theorem NormRuns.passes_folds {w w' : Work} {p f : Nat} (h : NormRuns w p f w') :
    p = f + 1 ∧ ∀ k, k < f → 2 ^ 255 ≤ foldedValue w.value k := by
  induction h with
  | leave settled => exact ⟨settled.eq_carryPass.1, fun k hk => absurd hk k.not_lt_zero⟩
  | @fold w _ _ _ _ _ settled htop _ ih =>
    obtain ⟨rfl, rfl⟩ := settled.eq_carryPass
    obtain ⟨hp, hge⟩ := ih
    refine ⟨by omega, fun k hk => ?_⟩
    cases k with
    | zero => exact (carryPass_w5_ne_zero_iff w).mp htop
    | succ k =>
      rw [← foldedValue_foldTop_carryPass]
      exact hge k (Nat.lt_of_succ_lt_succ hk)

/-- Settles O44: after two folds the value is below 2^255 and no third is made; R103's example makes two. -/
theorem normNeedsAtMostThreePasses : Obligations.NormNeedsAtMostThreePasses := by
  refine ⟨fun r p f w hls hruns => ?_, _, .fold (.stable (by decide)) (by decide)
    (.fold (.stable (by decide)) (by decide) (.leave (.stable (by decide)) (by decide))), by decide⟩
  obtain ⟨hp, hge⟩ := hruns.passes_folds
  have hf : f ≤ 2 := by
    by_contra hf
    have htwo := hge 2 (Nat.lt_of_not_le hf)
    exact (foldedValue_two_lt ((Work.load_value hls).trans_lt (LimbSetReg.value_lt hls))).not_ge htwo
  exact ⟨by omega, hf⟩

/-! ## The size of a working limb -/

/-- The most limb j can hold when the scan has limb i before it: a limb that is masked already is below 2^51, limb 0 is
largest after the fold of the largest limb 5, and limb i has what the limb before it carried, from limb 0 after a fold
at most 155649 and from the others at most 2^13. -/
def scanBound (i j : Nat) : Nat :=
  if j < i ∧ j < 5 then 2 ^ 51 - 1
  else if j = 0 then 0x130008000000025FEC
  else if j = i then 2 ^ 64 - 1 + if j = 1 then 155649 else 2 ^ 13
  else 2 ^ 64 - 1

/-- The working limbs are within the bounds of the scan before limb i. -/
def Work.Within (i : Nat) (w : Work) : Prop :=
  w.w0 ≤ scanBound i 0 ∧ w.w1 ≤ scanBound i 1 ∧ w.w2 ≤ scanBound i 2 ∧ w.w3 ≤ scanBound i 3 ∧ w.w4 ≤ scanBound i 4 ∧
    w.w5 ≤ scanBound i 5

theorem scanBound_le (i j : Nat) : scanBound i j ≤ 0x130008000000025FEC := by
  unfold scanBound
  split_ifs <;> decide

/-- The slots of a register are within the bounds before the first scan. -/
theorem Work.within_load (r : LimbSetReg) : (Work.load r).Within 0 := by
  have h0 := r.l0.isLt; have h1 := r.l1.isLt; have h2 := r.l2.isLt
  have h3 := r.l3.isLt; have h4 := r.l4.isLt; have h5 := r.l5.isLt
  simp [Work.Within, Work.load, scanBound]
  split <;> omega

/-- A carry at limb i masks it and hands its overflow to the next limb. -/
theorem Work.Within.carryAt {i : Nat} {w : Work} (h : w.Within i) (hi : i < 5) : (carryAt i w).Within (i + 1) := by
  interval_cases i <;>
    simp [Work.Within, scanBound, Machine.carryAt, low51_eq_mod, overflow_eq_div] at h ⊢ <;> omega

/-- A fold adds 19 times limb 5 to limb 0, which the scan has masked. -/
theorem Work.Within.foldTop {w : Work} (h : w.Within 5) : (foldTop w).Within 0 := by
  simp [Work.Within, scanBound, Machine.foldTop, Config.FOLD] at h ⊢
  omega

/-- After a scan limbs 0 to 4 are in bound. -/
theorem Work.Within.inBound {w : Work} (h : w.Within 5) : w.inBound = true := by
  rw [Work.inBound_iff]
  simp [Work.Within, scanBound] at h ⊢
  omega

/-- The loop of R100 keeps the working limbs within the bounds of the scan. -/
theorem NormHolds.within {r : LimbSetReg} {i : Nat} {w : Work} (h : NormHolds (.load r) i w) : w.Within i := by
  induction h with
  | start => exact Work.within_load r
  | carry _ scan ih => exact ih.carryAt scan
  | again _ unbounded ih => exact absurd (unbounded.symm.trans ih.inBound) (by decide)
  | fold _ _ _ ih => exact ih.foldTop

/-- A scan from limb 0 is one carry pass. -/
theorem NormHolds.carryPass {w0 w : Work} (h : NormHolds w0 0 w) : NormHolds w0 5 (carryPass w) :=
  .carry (.carry (.carry (.carry (.carry h (by decide)) (by decide)) (by decide)) (by decide)) (by decide)

/-- Settles O45: every bound of the scan is at most the largest limb 0 a fold can leave, which the largest slots
reach. -/
theorem workingLimbsStayBelow70Bits : Obligations.WorkingLimbsStayBelow70Bits := by
  refine ⟨fun r i w h => ?_, by decide, _, .fold (NormHolds.start.carryPass) (by decide) (by decide), by decide⟩
  obtain ⟨h0, h1, h2, h3, h4, h5⟩ := h.within
  exact ⟨h0.trans (scanBound_le i 0), h1.trans (scanBound_le i 1), h2.trans (scanBound_le i 2),
    h3.trans (scanBound_le i 3), h4.trans (scanBound_le i 4), h5.trans (scanBound_le i 5)⟩

end Sys2Proof.Machine
end

section
/-! PROOFS. NORM's result (R104, R106, R108, R109): valid and congruent to the source, and a valid set of five limbs is
its own result. The modulus constant is one (R115). -/

namespace Sys2Proof.Machine

/-! ## Valid and congruent -/

/-- Working limbs in bound are stored as a valid set. -/
theorem Work.store_validate {w : Work} (h : w.inBound = true) : w.store.validate = true := by
  obtain ⟨s0, s1, s2, s3, s4, -, hc⟩ := Work.store_fields h
  rw [Work.inBound_iff, ← s0, ← s1, ← s2, ← s3, ← s4] at h
  simpa [LimbSetReg.validate, LimbSetReg.limbs_five hc, Config.W] using h

/-- A fold keeps the value mod p (R99). -/
theorem foldTop_value_mod (w : Work) : (foldTop w).value % Config.P = w.value % Config.P := by
  rw [← foldTop_value w, Nat.add_mul_mod_self_right]

/-- A run of the loop keeps the value mod p. -/
theorem NormRuns.value_mod {w w' : Work} {p f : Nat} (h : NormRuns w p f w') :
    w'.value % Config.P = w.value % Config.P := by
  induction h with
  | leave settled =>
    obtain ⟨-, rfl⟩ := settled.eq_carryPass
    rw [carryPass_value]
  | fold settled _ _ ih =>
    obtain ⟨-, rfl⟩ := settled.eq_carryPass
    rw [ih, foldTop_value_mod, carryPass_value]

variable {r : LimbSetReg}

theorem normalized_validate (h : isLs r.cnt = true) : (normalized r).validate = true := by
  obtain ⟨p, f, hruns⟩ := normRuns_load h
  exact Work.store_validate hruns.inBound_w5.1

theorem normalized_value_mod (h : isLs r.cnt = true) : (normalized r).value % Config.P = r.value % Config.P := by
  obtain ⟨p, f, hruns⟩ := normRuns_load h
  obtain ⟨hin, h5⟩ := hruns.inBound_w5
  rw [normalized, Work.store_value hin h5, hruns.value_mod, Work.load_value h]

/-- Settles O46: the loop ends with its limbs in bound, and its passes and folds keep the value mod p. -/
theorem normResultIsValidAndCongruent : Obligations.NormResultIsValidAndCongruent := by
  intro sd ss s hcnt
  have hls := (isLs_iff _).mpr hcnt
  have hvalid := normalized_validate hls
  refine ⟨_, exec_norm_loadS sd hls, ?_, ?_, ?_, (exec_rdc sd _).trans ?_, exec_valid_of_validate ?_ ?_⟩ <;>
    rw [State.loadS_readS]
  · exact hvalid
  · exact normalized_value_mod hls
  · exact normalized_value_lt hls
  · rfl
  · rfl
  · exact hvalid

/-! ## Valid sets that NORM keeps -/

/-- Working limbs in bound are determined by their value, whose digits they are. -/
theorem Work.eq_of_inBound {w w' : Work} (h : w.inBound = true) (h' : w'.inBound = true) (hv : w.value = w'.value) :
    w = w' := by
  obtain ⟨a0, a1, a2, a3, a4, a5⟩ := Work.digits_of_inBound h
  obtain ⟨b0, b1, b2, b3, b4, b5⟩ := Work.digits_of_inBound h'
  rw [hv] at a0 a1 a2 a3 a4 a5
  cases w
  cases w'
  exact (Work.mk.injEq ..).mpr ⟨a0.trans b0.symm, a1.trans b1.symm, a2.trans b2.symm, a3.trans b3.symm,
    a4.trans b4.symm, a5.trans b5.symm⟩

/-- A carry pass leaves limbs that are in bound as they are. -/
theorem carryPass_of_inBound {w : Work} (h : w.inBound = true) : carryPass w = w :=
  Work.eq_of_inBound (carryPass_inBound w) h (carryPass_value w)

/-- NORM's result for a valid set below 2^255 is its five limbs. -/
theorem normalized_of_validate (h : isLs r.cnt = true) (hv : r.validate = true) (hlt : r.value < 2 ^ 255) :
    normalized r = { r with l5 := 0, cnt := 5 } := by
  have hin := Work.load_inBound h hv
  have hpass := carryPass_of_inBound hin
  have htop := carryPass_w5_of_lt ((Work.load_value h).trans_lt hlt)
  rw [normalized, passBound, normLoop_succ, if_pos htop, hpass]
  simp [Work.store, Work.load, LimbSetReg.ofLimbs]

/-- The value of a valid set of five limbs is below 2^255. -/
theorem LimbSetReg.value_lt_of_validate_five (hc : r.cnt = 5) (hv : r.validate = true) : r.value < 2 ^ 255 := by
  have hls := (isLs_iff _).mpr (.inl hc)
  rw [← Work.load_value hls]
  exact Work.value_lt_of_inBound (Work.load_inBound hls hv) (by simp [Work.load, hc])

/-- A valid set of five limbs with slot 5 zero is its own result, in all seven fields. -/
theorem normalized_eq_self (hc : r.cnt = 5) (h5 : r.l5 = 0) (hv : r.validate = true) : normalized r = r := by
  rw [normalized_of_validate ((isLs_iff _).mpr (.inl hc)) hv (LimbSetReg.value_lt_of_validate_five hc hv), ← hc, ← h5]

/-- NORM of a register just loaded with such a set gives it back. -/
theorem exec_norm_loadS_eq_self (s : State) (sd' sd : SReg) (hc : r.cnt = 5) (h5 : r.l5 = 0)
    (hv : r.validate = true) : exec (.norm sd' sd) (s.loadS sd r) = .next ((s.loadS sd r).loadS sd' r) := by
  have hls : isLs ((s.loadS sd r).readS sd).cnt = true := by
    rw [State.loadS_readS]
    exact (isLs_iff _).mpr (.inl hc)
  rw [exec_norm_loadS sd' hls, State.loadS_readS, normalized_eq_self hc h5 hv]

/-- Settles O48: NORM's result is a valid set of five limbs with slot 5 zero. -/
theorem normIsIdempotent : Obligations.NormIsIdempotent := by
  intro sd ss sd' s t h hok
  have hls := isLs_of_exec_norm_ok h hok
  cases (exec_norm_loadS sd hls).symm.trans h
  refine ⟨_, exec_norm_loadS_eq_self s sd' sd rfl rfl (normalized_validate hls), rfl, ?_⟩
  rw [State.loadS_readS, State.loadS_readS]

/-- Settles O49: below 2^255 a valid set has nothing to carry or fold; a result of DECOMP with count 5 and the constant
are valid sets of five limbs with slot 5 zero. -/
theorem normKeepsValidSmallSets : Obligations.NormKeepsValidSmallSets := by
  refine ⟨fun sd ss s hcnt hv hlt => ?small, fun sd' sd ns s t h hok => ?decomp, fun sd' sd s => ?modp⟩
  case small =>
    have hls := (isLs_iff _).mpr hcnt
    rw [exec_norm_loadS sd hls, normalized_of_validate hls hv hlt, State.loadS]
  case decomp =>
    obtain ⟨-, -, e⟩ | ⟨-, -, e⟩ | ⟨-, e⟩ := execDecomp_cases s sd ns 5 <;> cases e.symm.trans h
    · refine ⟨_, exec_norm_loadS_eq_self s sd' sd rfl rfl (validate_ofLimbs_digits51 (s.readN ns).toNat 5), ?_⟩
      rw [State.loadS_readS]
      exact (State.loadS_readS s sd _).symm
    · cases hok
    · cases hok
  case modp =>
    refine ⟨_, _, exec_modp sd s, exec_norm_loadS_eq_self s sd' sd rfl (by decide) (by decide), ?_⟩
    rw [State.loadS_readS, State.loadS_readS]

/-! ## Integers -/

/-- Settles O50: NORM into another register leaves the source, so the two RECOMPs write two congruent values, or the
second writes over the first. -/
theorem normCongruenceThroughRecomp : Obligations.NormCongruenceThroughRecomp := by
  intro sd ss na nb s hne hcnt
  have hls := (isLs_iff _).mpr hcnt
  have hsource := s.loadS_readS_ne (normalized (s.readS ss)) hne.symm
  have hresult := s.loadS_readS sd (normalized (s.readS ss))
  have hrecomp := exec_recomp_loadN (s := s.loadS sd (normalized (s.readS ss))) na (ss := ss) (by rwa [hsource])
  rw [hsource] at hrecomp
  refine ⟨_, _, _, exec_norm_loadS sd hls, hrecomp, exec_recomp_loadN nb ?_, ?_⟩ <;>
    rw [State.loadN_readS, hresult]
  · rfl
  · by_cases hn : na = nb
    · rw [hn]
    · rw [State.loadN_readN, State.loadN_readN_ne _ _ hn, State.loadN_readN, toNat_ofNat_value hls,
        toNat_ofNat_value (r := normalized (s.readS ss)) rfl, normalized_value_mod hls]

/-- Settles O52: the constant is the decomposition of p, so MODP is DECOMP of p, and RECOMP gives p back. -/
theorem modulusIsSelfConsistent : Obligations.ModulusIsSelfConsistent := by
  have hdigits : pLimbs = digits51 (2 ^ 255 - 19) 5 := by decide
  refine ⟨fun sd nd s => ?recomp, fun sd ns s hn => ?decomp, hdigits⟩
  case recomp =>
    refine ⟨_, _, exec_modp sd s, exec_recomp_loadN nd ?_, ?_⟩ <;> rw [State.loadS_readS]
    · rfl
    · rw [State.loadN_readN]
      decide
  case decomp =>
    have hlt : (s.readN ns).toNat < 2 ^ (51 * (5 : Count).toNat) := by rw [hn]; decide
    rw [exec_decomp_loadS sd (by decide) hlt, exec_modp, hn, hdigits]
    rfl

end Sys2Proof.Machine
end
